-- ==== Sys2Proof/Word.lean ====
section
/-! DEFINITION. The word types of the codec: a byte (R12) and a command word (R98). -/

namespace Sys2Proof

/-- A byte, `0..255` (R12). -/
abbrev Byte := BitVec 8

/-- A 16-bit command word (R98). -/
abbrev CommandWord := BitVec 16

end Sys2Proof
end

