-- ==== Sys2Proof/Syntax.lean ====
section
/-! DEFINITION. The vocabulary of the command port: the Observation (R30 to R33), the nine operations with their
operands (R99), the command word with its payload (R98), and the conditions with their information records (R230). -/

namespace Sys2Proof

/-- The 23 numeric fields of an Observation, in wire order (R31; the source's keys are in that table). -/
inductive FieldId where
  | ver | kk | obj | year | month | day | site | hour | minute | dorg | dur | cloud | cirrus
  | lowcloud | halo | bright | color | compl | front | precip | region | upang | loang
  deriving DecidableEq, Repr

/-- An Observation (R30): 23 numeric fields (R31), the sector string (R32), the remark (R33). The fields are
unbounded integers, as R31 allows ("the encoding rules are total over all integers"). -/
structure Observation where
  ver : Int := 0
  kk : Int := 0
  obj : Int := 0
  year : Int := 0
  month : Int := 0
  day : Int := 0
  site : Int := 0
  hour : Int := 0
  minute : Int := 0
  dorg : Int := 0
  dur : Int := 0
  cloud : Int := 0
  cirrus : Int := 0
  lowcloud : Int := 0
  halo : Int := 0
  bright : Int := 0
  color : Int := 0
  compl : Int := 0
  front : Int := 0
  precip : Int := 0
  region : Int := 0
  upang : Int := 0
  loang : Int := 0
  sectors : List Byte := []
  remark : List Byte := []
  deriving DecidableEq, Repr

/-- The nine operations of R99 with their operands. -/
inductive Instr where
  /-- `BW.INIT` (R111). -/
  | bwInit
  /-- `BW.WRITE value, n` (R112): any integer and any count at function level, `0..255` and `0..8` at the port. -/
  | bwWrite (value : Int) (n : Nat)
  /-- `BW.FLUSH` (R113). -/
  | bwFlush
  /-- `BR.LOAD bytes` (R132). -/
  | brLoad (bytes : List Byte)
  /-- `BR.READ n` (R133): any count at function level, `0..8` at the port. -/
  | brRead (n : Nat)
  /-- `ENC.ENCODE x` (R152). -/
  | encEncode (x : Observation)
  /-- `DEC.DECODE bytes` (R183). -/
  | decDecode (bytes : List Byte)
  /-- `RS.OPEN bytes` (R213). -/
  | rsOpen (bytes : List Byte)
  /-- `RS.NEXT` (R214). -/
  | rsNext
  deriving DecidableEq, Repr

/-- The payload beside a command word (R98): a byte sequence, an Observation, or nothing. -/
inductive Payload where
  | none
  | bytes (b : List Byte)
  | observation (x : Observation)
  deriving DecidableEq, Repr

/-- A command at the port: the word and its payload (R98). -/
structure Command where
  word : CommandWord
  payload : Payload
  deriving DecidableEq, Repr

/-- What the host may do between operations: issue a command (R7) or reset the block (R261). -/
inductive HostEvent where
  | command (c : Command)
  | reset
  deriving DecidableEq, Repr

/-- The condition codes of R230; `success` is code 0. -/
inductive ConditionCode where
  | success
  | writerClosed
  | writerFull
  | unexpectedEndOfData
  | truncatedRecord
  | malformedRemark
  | malformedField
  | illegalCommand
  deriving DecidableEq, Repr, Inhabited

/-- The seven conditions of R230, each with its information record (R231 to R238). -/
inductive Condition where
  /-- R231: the writer was flushed and not re-initialised; no record. -/
  | writerClosed
  /-- R232: `(T, n)`, the bits written so far and the count asked for. -/
  | writerFull (written n : Nat)
  /-- R233: `(cur, n, len(src))`. -/
  | unexpectedEndOfData (cur n len : Nat)
  /-- R234: `len(B)`. -/
  | truncatedRecord (len : Nat)
  /-- R235: `(F, L, len(B))`, `L = none` when the length byte is missing. -/
  | malformedRemark (fixed : Nat) (length : Option Nat) (len : Nat)
  /-- R236: `(i, c)`, the lowest sector index holding a code with no character, and the code. -/
  | malformedField (index code : Nat)
  /-- R237: the command word. -/
  | illegalCommand (word : CommandWord)
  deriving DecidableEq, Repr

end Sys2Proof
end

