-- ==== Sys2Proof/Config.lean ====
section
/-! DEFINITION. The parameters an instance fixes (R8) and the values the spec leaves open: the digit codes of the
sector alphabet (R88) and the error registers of a stream that is not in error (R213, U16). -/

namespace Sys2Proof

/-- `SECT_DIGIT` (R88): the 4-bit code of each digit character. -/
abbrev SectDigit := Fin 10 → Nat

/-- R88: "It must be injective and must avoid the three fixed codes". -/
def SectDigit.Admissible (sd : SectDigit) : Prop :=
  (∀ d e, sd d = sd e → d = e) ∧ ∀ d, (1 ≤ sd d ∧ sd d ≤ 8) ∨ (11 ≤ sd d ∧ sd d ≤ 15)

/-- The parameters of R8. -/
structure Config where
  /-- `WMAX`: the largest bit count a command may carry. -/
  wmax : Nat
  /-- `BW_CAP`: the capacity of the writer in bytes, `none` when unbounded. -/
  bwCap : Option Nat
  /-- `CHUNK`: bytes of lookahead `RS.NEXT` hands to the decoder. -/
  chunk : Nat
  /-- `SECT_DIGIT`. -/
  sectDigit : SectDigit

/-- `REMARK_MAX` (R8). -/
def remarkMax : Nat := 60

/-- `SECT_LEN` (R8). -/
def sectLen : Nat := 15

/-- The thirteen codes R88 leaves for the digits: 1..8 and 11..15. -/
def freeSectCode (k : Fin 13) : Nat := if k.val < 8 then k.val + 1 else k.val + 3

/-- The digit map that an arrangement of the thirteen codes gives: digit `d` takes the code in place `d`. Every
admissible map arises so (`Laws/Codes.lean`). -/
def sectDigitOf (p : Equiv.Perm (Fin 13)) : SectDigit := fun d => freeSectCode (p (d.castLE (by decide)))

/-- DESIGN CHOICE (log 7), safe: `SECT_DIGIT` is OPEN (D12), so the arrangement of the codes is an uninterpreted
constant, and a claim about the instance holds whatever admissible map it is. -/
opaque Config.sectArrangement : Equiv.Perm (Fin 13)

/-- DESIGN CHOICE (log 5), safe: the unspecified value of `RS.err_off` (R38, R213, U16), one draw per index. -/
opaque Config.freeErrOff : Nat → Nat

/-- DESIGN CHOICE (log 5), safe: the unspecified value of `RS.err_cause` (R38, R213, U16), one draw per index. -/
opaque Config.freeErrCause : Nat → ConditionCode

/-- The instance, with the values R8 takes: `WMAX = 8`, `BW_CAP` unbounded, `CHUNK = 100`, `SECT_DIGIT` open (logs 7, 8,
9). -/
def Config.hw : Config :=
  { wmax := 8, bwCap := none, chunk := 100, sectDigit := sectDigitOf Config.sectArrangement }

/-- The reference instantiation of `SECT_DIGIT` (R92), used by the test vectors and by nothing else. -/
def sectDigitRef : SectDigit := fun d => if d.val = 0 then 12 else if d.val = 9 then 11 else d.val

end Sys2Proof
end

