-- ==== Sys2Proof/WellFormed.lean ====
section
/-! DEFINITION. Which operands the command port can carry (R32, R33, R98). -/

namespace Sys2Proof

/-- The operand type of `ENC.ENCODE` (R32, R33, R151): at most 15 sector characters and 60 remark bytes. -/
def Observation.wf (x : Observation) : Bool :=
  x.sectors.length ≤ sectLen && x.remark.length ≤ remarkMax

/-- The operands that a command word and its payload can carry (R98): an 8-bit `value`, `n` up to `WMAX`, an
Observation of the operand type. -/
def Instr.wf : Instr → Bool
  | .bwInit => true
  | .bwWrite value n => 0 ≤ value && value < 256 && n ≤ Config.hw.wmax
  | .bwFlush => true
  | .brLoad _ => true
  | .brRead n => n ≤ Config.hw.wmax
  | .encEncode x => x.wf
  | .decDecode _ => true
  | .rsOpen _ => true
  | .rsNext => true

end Sys2Proof
end

