-- ==== Sys2Proof/Decode.lean ====
section
/-! DEFINITION. The command decoder (R98 to R100), total on every command, and after it the encoder. -/

namespace Sys2Proof

/-- Field `op`, bits 15..12 (R98). -/
def CommandWord.op (w : CommandWord) : Nat := w.toNat / 4096

/-- Field `n`, bits 11..8 (R98). -/
def CommandWord.count (w : CommandWord) : Nat := w.toNat / 256 % 16

/-- Field `value`, bits 7..0 (R98). -/
def CommandWord.value (w : CommandWord) : Nat := w.toNat % 256

/-- Why a command is no operation. -/
inductive DecodeError where
  /-- The word is reserved (R100): the block raises `IllegalCommand`. -/
  | illegalCommand (w : CommandWord)
  /-- The payload is not of the type the operation fixes (R98): no such command can be issued. -/
  | payloadMismatch (w : CommandWord)
  deriving DecidableEq, Repr

/-- R98: `n` must be 0 and `value` must be 0 for every operation but those that use them. -/
def zeroOperands (w : CommandWord) : Bool := w.count == 0 && w.value == 0

/-- R100: the command words that name an operation; every other word is reserved. -/
def legalWord (w : CommandWord) : Bool :=
  match w.op with
  | 1 => zeroOperands w
  | 2 => w.count ≤ Config.hw.wmax
  | 3 => zeroOperands w
  | 4 => zeroOperands w
  | 5 => w.count ≤ Config.hw.wmax && w.value == 0
  | 6 => zeroOperands w
  | 7 => zeroOperands w
  | 8 => zeroOperands w
  | 9 => zeroOperands w
  | _ => false

/-- The operation a legal word names with its payload (R99); `none` when the payload has another type. -/
def operation (w : CommandWord) (p : Payload) : Option Instr :=
  match w.op, p with
  | 1, .none => some .bwInit
  | 2, .none => some (.bwWrite w.value w.count)
  | 3, .none => some .bwFlush
  | 4, .bytes b => some (.brLoad b)
  | 5, .none => some (.brRead w.count)
  | 6, .observation x => some (.encEncode x)
  | 7, .bytes b => some (.decDecode b)
  | 8, .bytes b => some (.rsOpen b)
  | 9, .none => some .rsNext
  | _, _ => none

/-- Decode a command. `IllegalCommand` is decided first, on the word alone (R240). -/
def decode (c : Command) : Except DecodeError Instr :=
  if legalWord c.word then
    match operation c.word c.payload with
    | some i => .ok i
    | none => .error (.payloadMismatch c.word)
  else .error (.illegalCommand c.word)

/-- Put the three fields of format C together (R98). -/
def commandWord (op n value : Nat) : CommandWord := BitVec.ofNat 16 (4096 * op + 256 * n + value)

/-- The operation code of R99. -/
def Instr.opcode : Instr → Nat
  | .bwInit => 1
  | .bwWrite _ _ => 2
  | .bwFlush => 3
  | .brLoad _ => 4
  | .brRead _ => 5
  | .encEncode _ => 6
  | .decDecode _ => 7
  | .rsOpen _ => 8
  | .rsNext => 9

/-- The command of an operation (R98, R99), for a well-formed operation. -/
def encode (i : Instr) : Command :=
  match i with
  | .bwInit => ⟨commandWord 1 0 0, .none⟩
  | .bwWrite value n => ⟨commandWord 2 n value.toNat, .none⟩
  | .bwFlush => ⟨commandWord 3 0 0, .none⟩
  | .brLoad b => ⟨commandWord 4 0 0, .bytes b⟩
  | .brRead n => ⟨commandWord 5 n 0, .none⟩
  | .encEncode x => ⟨commandWord 6 0 0, .observation x⟩
  | .decDecode b => ⟨commandWord 7 0 0, .bytes b⟩
  | .rsOpen b => ⟨commandWord 8 0 0, .bytes b⟩
  | .rsNext => ⟨commandWord 9 0 0, .none⟩

/-- DESIGN CHOICE (log 13): the payload that stands beside a bare word, of the type its operation fixes and empty:
the empty sequence, the all-zero Observation, nothing. -/
def emptyPayload (w : CommandWord) : Payload :=
  match w.op with
  | 4 => .bytes []
  | 6 => .observation {}
  | 7 => .bytes []
  | 8 => .bytes []
  | _ => .none

/-- The command a bare table word stands for: the word, with the payload of log 13. -/
def bareCommand (nbits w : Nat) : Command :=
  let word := BitVec.ofNat 16 (w % 2 ^ nbits)
  ⟨word, emptyPayload word⟩

/-- The operation the decoder reads from a table word. -/
def decodeTableWord (nbits w : Nat) : Option Instr :=
  match decode (bareCommand nbits w) with
  | .ok i => some i
  | .error _ => none

end Sys2Proof
end

