-- ==== Sys2Proof/Machine/State.lean ====
section
/-! DEFINITION. The state of one instance (R20): the registers of the BitWriter, the BitReader and the RecordStream, and
the model's command port; the state after reset (R38); the ways a step can stop. -/

namespace Sys2Proof.Machine

/-- The BitWriter registers (R21). -/
structure BitWriter where
  /-- `BW.buf`: the completed output bytes. -/
  buf : List Byte
  /-- `BW.acc`: the partial byte being filled. -/
  acc : BitVec 8
  /-- `BW.cnt`: how many low bits of `acc` are filled, `0..7`. -/
  cnt : Nat
  /-- `BW.closed`: set by a successful `BW.FLUSH`. -/
  closed : Bool
  deriving DecidableEq, Repr

/-- The BitReader registers (R23). -/
structure BitReader where
  /-- `BR.src`: the immutable slice. -/
  src : List Byte
  /-- `BR.cur`: the bit cursor, `0 .. 8 * len(src)`. -/
  cur : Nat
  deriving DecidableEq, Repr

/-- `RS.status` (R28, R211). -/
inductive StreamStatus where
  /-- The source's Start. -/
  | running
  /-- Terminal/End. -/
  | ended
  /-- Terminal/Error. -/
  | error
  deriving DecidableEq, Repr

/-- The RecordStream registers (R28). -/
structure RecordStream where
  /-- `RS.src`: the byte source. -/
  src : List Byte
  /-- `RS.off`: the byte offset of the next record, `0 .. len(src)`. -/
  off : Nat
  /-- `RS.status`. -/
  status : StreamStatus
  /-- `RS.err_off`: the offset of the failing record, in `error`. -/
  errOff : Nat
  /-- `RS.err_cause`: the code of the decode condition that ended the stream, in `error`. DEDUCED (log 6), unsafe: the
  code alone, as R28 types the register and R221 needs it, without the information record of R238. -/
  errCause : ConditionCode
  deriving DecidableEq, Repr

/-- The result of a successful command (R99, R102). -/
inductive Result where
  /-- No result payload. -/
  | none
  /-- A byte sequence (`BW.FLUSH`, `ENC.ENCODE`). -/
  | bytes (b : List Byte)
  /-- An unsigned value of `n` bits (`BR.READ n`). -/
  | value (n v : Nat)
  /-- An Observation and `bytes_consumed` (`DEC.DECODE`). -/
  | decoded (x : Observation) (consumed : Nat)
  /-- `Item(Observation)` (`RS.NEXT`). -/
  | item (x : Observation)
  /-- `End` (`RS.NEXT`). -/
  | streamEnd
  /-- `Error(offset, cause)` (`RS.NEXT`). -/
  | streamError (offset : Nat) (cause : ConditionCode)
  deriving DecidableEq, Repr

/-- The response to a command (R102): success with a result, or a condition with its information record. -/
inductive Response where
  | ok (r : Result)
  | condition (c : Condition)
  deriving DecidableEq, Repr

/-- The state: the registers of R20, and the model's own port. -/
structure State where
  /-- The BitWriter (R21). -/
  bw : BitWriter
  /-- The BitReader (R23). -/
  br : BitReader
  /-- The RecordStream (R28). -/
  rs : RecordStream
  /-- The model's own (log 1): what the host has issued and the block has not yet taken, oldest first. -/
  pending : List HostEvent
  /-- The model's own (log 2): the response to the latest command. -/
  response : Option Response
  /-- The model's own (log 5): the index of the next free value. -/
  free : Nat
  deriving DecidableEq, Repr

/-- Nothing in the spec stops the machine: a condition (R230) is a response after which it goes on (R243), so no
fault exists. -/
inductive Fault where
  deriving DecidableEq, Repr

/-- Why a command has no meaning. -/
inductive Refusal where
  /-- Raised by `exec` for an operation that has no meaning yet. Safe. -/
  | notModelled (mnemonic : String)
  /-- Raised by `step` when the payload is not of the type the operation fixes (R98; log 10). Safe: the port cannot
  carry such a command. -/
  | payloadMismatch (word : CommandWord)
  /-- Raised by `ENC.ENCODE` for an Observation outside its operand type (R32, R33, U9; log 11). Safe: it "cannot be
  presented". -/
  | observationTooLong
  deriving DecidableEq, Repr

/-- The BitWriter at reset (R38). -/
def BitWriter.reset : BitWriter := { buf := [], acc := 0, cnt := 0, closed := false }

/-- The BitReader at reset (R38). -/
def BitReader.reset : BitReader := { src := [], cur := 0 }

/-- The RecordStream at reset (R38). DESIGN CHOICE (log 4), unsafe: R38 leaves `err_off` and `err_cause` unspecified;
they hold 0 and code 0. -/
def RecordStream.reset : RecordStream :=
  { src := [], off := 0, status := .running, errOff := 0, errCause := .success }

/-- The state after reset (R38, R260). -/
def State.reset : State :=
  { bw := .reset, br := .reset, rs := .reset, pending := [], response := none, free := 0 }

end Sys2Proof.Machine
end

