-- ==== Sys2Proof/Machine/Operands.lean ====
section
/-! DEFINITION. Bits, bytes and bit streams (R10 to R14), the field table (R31, R72), the derived sizes (R9), the field
codes (R76 to R85), the sector codes (R86 to R90) and the construction of an Observation (R34). -/

namespace Sys2Proof.Machine

/-! ### Bits of integers (R10, R11) -/

/-- `bit(v, i) = (v div 2^i) mod 2`, with floor division (R10, R11). -/
def bit (v : Int) (i : Nat) : Bool := v / ((2 ^ i : Nat) : Int) % 2 == 1

/-- `low_n(v) = v mod 2^n`, with floor modulus (R11). -/
def lowBits (n : Nat) (v : Int) : Nat := (v % ((2 ^ n : Nat) : Int)).toNat

/-- `<bit(v,0), ..., bit(v,n-1)>`: the order in which `BW.WRITE` emits the bits of a value (R51, R112). -/
def valueBits (v : Int) (n : Nat) : List Bool := (List.range n).map (bit v)

/-- The number whose bits these are, the first bit the least significant (R51, R133). -/
def bitsToNat : List Bool → Nat
  | [] => 0
  | b :: bs => b.toNat + 2 * bitsToNat bs

/-! ### Bytes and bit streams (R12 to R14) -/

/-- Byte `j` of a sequence. 0 beyond its end (DESIGN CHOICE, log 18, safe): every use is guarded by a test of the length
(R59, R65). -/
def byteAt (B : List Byte) (j : Nat) : Byte := B.getD j 0

/-- Stream bit `k`: bit `k mod 8` of byte `k div 8` (R13). -/
def streamBit (B : List Byte) (k : Nat) : Bool := (byteAt B (k / 8)).getLsbD (k % 8)

/-- `unpack(B)`, the bit stream of a byte sequence (R13). -/
def unpack (B : List Byte) : List Bool := (List.range (8 * B.length)).map (streamBit B)

/-- `pack(s)`: bit `b` of byte `j` is `s[8j + b]`, 0 beyond the end (R13). -/
def pack (s : List Bool) : List Byte :=
  (List.range ((s.length + 7) / 8)).map fun j => BitVec.ofNat 8 (bitsToNat ((s.drop (8 * j)).take 8))

/-- `I(B) = Sum_m B[m] * 256^m`, the little-endian integer of a sequence (R134). -/
def littleEndian : List Byte → Nat
  | [] => 0
  | b :: bs => b.toNat + 256 * littleEndian bs

/-- `MemRead(S, addr, n)`: the bytes `S[addr : addr+n]` (R14). -/
def memRead (S : List Byte) (addr n : Nat) : List Byte := (S.drop addr).take n

/-- `MemWrite(S, addr, len(v), v)`: replaces bytes from `addr`, appends when `addr = len(S)` (R14). -/
def memWrite (S : List Byte) (addr : Nat) (v : List Byte) : List Byte :=
  S.take addr ++ v ++ S.drop (addr + v.length)

end Sys2Proof.Machine

namespace Sys2Proof

/-! ### The field table (R31, R72) and the derived sizes (R9) -/

/-- The packed width of a field (R31); for `kk`, the 7-bit observer slot. -/
def FieldId.width : FieldId → Nat
  | .ver => 8
  | .kk => 7
  | .obj => 3
  | .year => 7
  | .month => 4
  | .day => 5
  | .site => 2
  | .hour => 5
  | .minute => 6
  | .dorg => 3
  | .dur => 7
  | .cloud => 4
  | .cirrus => 3
  | .lowcloud => 4
  | .halo => 7
  | .bright => 3
  | .color => 3
  | .compl => 2
  | .front => 4
  | .precip => 7
  | .region => 7
  | .upang => 7
  | .loang => 7

/-- The width of `kk8`, the escape byte (R79). -/
def escapeWidth : Nat := 8

/-- The width of a sector code (R86). -/
def sectWidth : Nat := 4

/-- The fields after the observer id and the object type, in wire order (R71, R72). -/
def laterFields : List FieldId :=
  [.year, .month, .day, .site, .hour, .minute, .dorg, .dur, .cloud, .cirrus, .lowcloud, .halo, .bright, .color,
    .compl, .front, .precip, .region, .upang, .loang]

/-- `BITS_NORMAL` (R9): the sum of the widths of a record without the escape byte. -/
def bitsNormal : Nat :=
  (([FieldId.ver, .kk, .obj] ++ laterFields).map FieldId.width).sum + sectLen * sectWidth

/-- `BITS_ESCAPE` (R9). -/
def bitsEscape : Nat := bitsNormal + escapeWidth

/-- `FIXED_NORMAL = ceil(BITS_NORMAL / 8)` (R9). -/
def fixedNormal : Nat := (bitsNormal + 7) / 8

/-- `FIXED_ESCAPE = ceil(BITS_ESCAPE / 8)` (R9). -/
def fixedEscape : Nat := (bitsEscape + 7) / 8

/-- `REC_MIN` (R9). -/
def recMin : Nat := fixedNormal + 1

/-- `REC_MAX` (R9). -/
def recMax : Nat := fixedEscape + 1 + remarkMax

/-- `x[i]` (R14). -/
def Observation.get (x : Observation) : FieldId → Int
  | .ver => x.ver
  | .kk => x.kk
  | .obj => x.obj
  | .year => x.year
  | .month => x.month
  | .day => x.day
  | .site => x.site
  | .hour => x.hour
  | .minute => x.minute
  | .dorg => x.dorg
  | .dur => x.dur
  | .cloud => x.cloud
  | .cirrus => x.cirrus
  | .lowcloud => x.lowcloud
  | .halo => x.halo
  | .bright => x.bright
  | .color => x.color
  | .compl => x.compl
  | .front => x.front
  | .precip => x.precip
  | .region => x.region
  | .upang => x.upang
  | .loang => x.loang

/-- `x[i] <- v` (R14). -/
def Observation.set (x : Observation) (f : FieldId) (v : Int) : Observation :=
  match f with
  | .ver => { x with ver := v }
  | .kk => { x with kk := v }
  | .obj => { x with obj := v }
  | .year => { x with year := v }
  | .month => { x with month := v }
  | .day => { x with day := v }
  | .site => { x with site := v }
  | .hour => { x with hour := v }
  | .minute => { x with minute := v }
  | .dorg => { x with dorg := v }
  | .dur => { x with dur := v }
  | .cloud => { x with cloud := v }
  | .cirrus => { x with cirrus := v }
  | .lowcloud => { x with lowcloud := v }
  | .halo => { x with halo := v }
  | .bright => { x with bright := v }
  | .color => { x with color := v }
  | .compl => { x with compl := v }
  | .front => { x with front := v }
  | .precip => { x with precip := v }
  | .region => { x with region := v }
  | .upang => { x with upang := v }
  | .loang => { x with loang := v }

/-- Apply a per-field map to the 23 numeric fields. -/
def Observation.mapFields (g : FieldId → Int → Int) (x : Observation) : Observation :=
  { x with
    ver := g .ver x.ver, kk := g .kk x.kk, obj := g .obj x.obj, year := g .year x.year, month := g .month x.month,
    day := g .day x.day, site := g .site x.site, hour := g .hour x.hour, minute := g .minute x.minute,
    dorg := g .dorg x.dorg, dur := g .dur x.dur, cloud := g .cloud x.cloud, cirrus := g .cirrus x.cirrus,
    lowcloud := g .lowcloud x.lowcloud, halo := g .halo x.halo, bright := g .bright x.bright,
    color := g .color x.color, compl := g .compl x.compl, front := g .front x.front, precip := g .precip x.precip,
    region := g .region x.region, upang := g .upang x.upang, loang := g .loang x.loang }

/-- The seven fields in which `-1` means unknown (R82). -/
def FieldId.sentinel : FieldId → Bool
  | .bright | .color | .compl | .front | .precip | .upang | .loang => true
  | .ver | .kk | .obj | .year | .month | .day | .site | .hour | .minute | .dorg | .dur | .cloud | .cirrus
  | .lowcloud | .halo | .region => false

end Sys2Proof

namespace Sys2Proof.Machine

/-! ### Field codes (R76 to R85) -/

/-- `enc_code(i, v)` (R84). -/
def encCode (f : FieldId) (v : Int) : Nat :=
  if f = .dorg ∧ v = 255 then 3
  else if f.sentinel ∧ v = -1 then 2 ^ f.width - 1
  else lowBits f.width v

/-- `dec_value(i, c)` (R85). -/
def decValue (f : FieldId) (c : Int) : Int :=
  if f = .dorg ∧ c = 3 then 255
  else if f.sentinel ∧ c = ((2 ^ f.width - 1 : Nat) : Int) then -1
  else c

/-! ### Sector codes (R86 to R90) -/

/-- The space character, the only whitespace (R32). -/
def space : Byte := 0x20

/-- The digit of a character `'0'..'9'` (R88). -/
def digitOf (ch : Byte) : Option (Fin 10) :=
  if h : 0x30 ≤ ch.toNat ∧ ch.toNat ≤ 0x39 then some ⟨ch.toNat - 0x30, by omega⟩ else none

/-- The character of a digit. -/
def digitChar (d : Fin 10) : Byte := BitVec.ofNat 8 (0x30 + d.val)

/-- `sect_code(ch)` (R89), total: an unmapped character has the space code. -/
def sectCode (sd : SectDigit) (ch : Byte) : Nat :=
  if ch = space then 0
  else if ch = 0x2F then 9
  else if ch = 0x2D then 10
  else match digitOf ch with
    | some d => sd d
    | none => 0

/-- `sect_char(c)` (R90), partial: three codes have no character. -/
def sectChar (sd : SectDigit) (c : Nat) : Option Byte :=
  if c = 0 then some space
  else if c = 9 then some 0x2F
  else if c = 10 then some 0x2D
  else ((List.finRange 10).find? fun d => sd d == c).map digitChar

/-- The 15-character wire string: the sectors padded with spaces on the right (R86, C4). -/
def padSectors (s : List Byte) : List Byte := s ++ List.replicate (sectLen - s.length) space

/-- `rtrim` (R34): removes every trailing space. -/
def rtrim (s : List Byte) : List Byte := s.rdropWhile (· == space)

/-! ### Construction of an Observation (R34) -/

/-- The normalisation that `mk_obs` and the decoder share (R34, R190). -/
def normalise (x : Observation) (sectorsIn remarkIn : List Byte) : Observation :=
  { x with sectors := rtrim sectorsIn, remark := remarkIn.take remarkMax }

/-- `mk_obs(fields, sectors_in, remark_in)` (R34), on the host's side of the port; the numeric fields are those of
`x`. Defined only when the trimmed sectors fit. -/
def mkObs (x : Observation) (sectorsIn remarkIn : List Byte) : Option Observation :=
  if (rtrim sectorsIn).length ≤ sectLen then some (normalise x sectorsIn remarkIn) else none

end Sys2Proof.Machine
end

