-- ==== Sys2Proof/Machine/Flags.lean ====
section
/-! DEFINITION. The status surface (R25, R26): condition codes (R230), the status code of a response (R102), and which
decode condition ends a stream (R214). -/

namespace Sys2Proof

/-- The numbers of the condition codes (R230). -/
def ConditionCode.number : ConditionCode → Nat
  | .success => 0
  | .writerClosed => 1
  | .writerFull => 2
  | .unexpectedEndOfData => 3
  | .truncatedRecord => 4
  | .malformedRemark => 5
  | .malformedField => 6
  | .illegalCommand => 7

/-- The code of a condition (R230). -/
def Condition.code : Condition → ConditionCode
  | .writerClosed => .writerClosed
  | .writerFull _ _ => .writerFull
  | .unexpectedEndOfData _ _ _ => .unexpectedEndOfData
  | .truncatedRecord _ => .truncatedRecord
  | .malformedRemark _ _ _ => .malformedRemark
  | .malformedField _ _ => .malformedField
  | .illegalCommand _ => .illegalCommand

/-- Which decode condition is the normal end of a stream (R214, R244): `TruncatedRecord` and no other. -/
def Condition.endsStream : Condition → Bool
  | .truncatedRecord _ => true
  | .writerClosed => false
  | .writerFull _ _ => false
  | .unexpectedEndOfData _ _ _ => false
  | .malformedRemark _ _ _ => false
  | .malformedField _ _ => false
  | .illegalCommand _ => false

end Sys2Proof

namespace Sys2Proof.Machine

/-- The status code of a response (R102): 0 for success, otherwise the condition code. -/
def Response.status : Response → ConditionCode
  | .ok _ => .success
  | .condition c => c.code

end Sys2Proof.Machine
end

