-- ==== Sys2Proof/Machine/Ops.lean ====
section
/-! DEFINITION. The operations the meanings share: completing a command (R102), raising a condition (R241), reset
(R260), and the BitWriter and BitReader as functions of their own registers, used for the host-visible units and for
the private ones of ENC and DEC (R27). -/

namespace Sys2Proof.Machine

/-! ### Responses -/

/-- `return v` (R14, R102): end the operation with success. -/
def State.succeed (s : State) (r : Result) : State := { s with response := some (.ok r) }

/-- Raise a condition (R241): the condition and its record stand in place of the result, and every register keeps its
value. There is no saved context, vector or mode, and no return operation: the host issues its next command (R243). -/
def State.raise (s : State) (c : Condition) : State := { s with response := some (.condition c) }

/-- Reset taken between operations (R260, R261): every register at its value of R38. `err_off` and `err_cause` are
unspecified, so they are free values (log 5); no response stands (DESIGN CHOICE, log 14). -/
def State.takeReset (s : State) : State :=
  { s with
    bw := .reset, br := .reset
    rs := { RecordStream.reset with errOff := Config.freeErrOff s.free, errCause := Config.freeErrCause s.free }
    response := none
    free := s.free + 1 }

/-! ### BitWriter (R111 to R113) -/

/-- The written stream `ws(BW)` (R22). -/
def BitWriter.stream (w : BitWriter) : List Bool :=
  unpack w.buf ++ (List.range w.cnt).map fun i => w.acc.getLsbD i

/-- `T`, the number of bits written so far (R112). -/
def BitWriter.written (w : BitWriter) : Nat := 8 * w.buf.length + w.cnt

/-- One turn of the loop of R112: put one bit into the accumulator and move a full byte to the buffer. -/
def BitWriter.putBit (w : BitWriter) (b : Bool) : BitWriter :=
  let acc := w.acc + BitVec.ofNat 8 (b.toNat * 2 ^ w.cnt)
  if w.cnt + 1 = 8 then { w with buf := memWrite w.buf w.buf.length [acc], acc := 0, cnt := 0 }
  else { w with acc := acc, cnt := w.cnt + 1 }

/-- The loop of R112 over a list of bits. -/
def BitWriter.putBits : List Bool → BitWriter → BitWriter
  | [], w => w
  | b :: bs, w => BitWriter.putBits bs (w.putBit b)

/-- `ceil(T / 8) > BW_CAP`, never true of an unbounded writer (R112, R116). -/
def overCapacity (cap : Option Nat) (bits : Nat) : Bool :=
  match cap with
  | some c => c < (bits + 7) / 8
  | none => false

/-- `write_bits(value, n)` (R112). Both conditions are tested before any register changes. -/
def BitWriter.write (cfg : Config) (value : Int) (n : Nat) (w : BitWriter) : Except Condition BitWriter :=
  if w.closed then .error .writerClosed
  else if overCapacity cfg.bwCap (w.written + n) then .error (.writerFull w.written n)
  else .ok (BitWriter.putBits (valueBits value n) w)

/-- `flush()` (R113): the writer after it; its `buf` is the sequence returned. -/
def BitWriter.flush (w : BitWriter) : Except Condition BitWriter :=
  if w.closed then .error .writerClosed
  else if 0 < w.cnt then
    .ok { w with buf := memWrite w.buf w.buf.length [w.acc], acc := 0, cnt := 0, closed := true }
  else .ok { w with closed := true }

/-- A fixed sequence of writes, in order (R153). -/
def BitWriter.writeAll (cfg : Config) : List (Int × Nat) → BitWriter → Except Condition BitWriter
  | [], w => .ok w
  | (v, n) :: rest, w =>
    match w.write cfg v n with
    | .ok w' => BitWriter.writeAll cfg rest w'
    | .error c => .error c

/-! ### BitReader (R132, R133) -/

/-- The reader over a slice, cursor 0 (R132). -/
def BitReader.load (bytes : List Byte) : BitReader := { src := bytes, cur := 0 }

/-- `BR.bytepos` (R23), a view. -/
def BitReader.bytepos (r : BitReader) : Nat := r.cur / 8

/-- `BR.bitpos` (R23), a view. -/
def BitReader.bitpos (r : BitReader) : Nat := r.cur % 8

/-- `remaining(BR)` (R131), an integer. -/
def BitReader.remaining (r : BitReader) : Int := 8 * (r.src.length : Int) - r.cur

/-- `read_bits(n)` (R133): the value and the reader after it. The test comes before any bit is consumed. -/
def BitReader.read (n : Nat) (r : BitReader) : Except Condition (Nat × BitReader) :=
  if r.remaining < n then .error (.unexpectedEndOfData r.cur n r.src.length)
  else .ok (bitsToNat ((List.range n).map fun i => streamBit r.src (r.cur + i)), { r with cur := r.cur + n })

/-- Read the named fields in order into the numeric slots of an Observation, as raw codes (R183, phase 1). -/
def BitReader.readFields : List FieldId → BitReader → Observation → Except Condition (Observation × BitReader)
  | [], r, x => .ok (x, r)
  | f :: fs, r, x =>
    match r.read f.width with
    | .ok (c, r') => BitReader.readFields fs r' (x.set f c)
    | .error e => .error e

/-- Read `k` codes of `w` bits (R183, the sector loop). -/
def BitReader.readCodes (w : Nat) : Nat → BitReader → Except Condition (List Nat × BitReader)
  | 0, r => .ok ([], r)
  | k + 1, r =>
    match r.read w with
    | .error e => .error e
    | .ok (c, r') =>
      match BitReader.readCodes w k r' with
      | .error e => .error e
      | .ok (cs, r'') => .ok (c :: cs, r'')

end Sys2Proof.Machine
end

