-- ==== Sys2Proof/Machine/BitReader.lean ====
section
/-! DEFINITION. The meanings of BR.LOAD and BR.READ (`41_bitreader.md`). -/

namespace Sys2Proof.Machine

/-- `BR.LOAD bytes` (R132). -/
def execBrLoad (bytes : List Byte) (s : State) : Host.Outcome State Fault Refusal :=
  .next ({ s with br := .load bytes }.succeed .none)

/-- `BR.READ n` (R133). -/
def execBrRead (n : Nat) (s : State) : Host.Outcome State Fault Refusal :=
  match s.br.read n with
  | .ok (v, r) => .next ({ s with br := r }.succeed (.value n v))
  | .error c => .next (s.raise c)

end Sys2Proof.Machine
end

