-- ==== Sys2Proof/Machine/BitWriter.lean ====
section
/-! DEFINITION. The meanings of BW.INIT, BW.WRITE and BW.FLUSH (`40_bitwriter.md`). -/

namespace Sys2Proof.Machine

/-- `BW.INIT` (R111): legal in every state. -/
def execBwInit (s : State) : Host.Outcome State Fault Refusal :=
  .next ({ s with bw := .reset }.succeed .none)

/-- `BW.WRITE value, n` (R112). -/
def execBwWrite (value : Int) (n : Nat) (s : State) : Host.Outcome State Fault Refusal :=
  match s.bw.write Config.hw value n with
  | .ok w => .next ({ s with bw := w }.succeed .none)
  | .error c => .next (s.raise c)

/-- `BW.FLUSH` (R113): returns `BW.buf`. -/
def execBwFlush (s : State) : Host.Outcome State Fault Refusal :=
  match s.bw.flush with
  | .ok w => .next ({ s with bw := w }.succeed (.bytes w.buf))
  | .error c => .next (s.raise c)

end Sys2Proof.Machine
end

