-- ==== Sys2Proof/Machine/RecordDecoder.lean ====
section
/-! DEFINITION. The meaning of DEC.DECODE (`43_record_decoder.md`). -/

namespace Sys2Proof.Machine

/-- Phase 1 of R183: the codes of the numeric fields (in the slots of an Observation) and the sector codes. -/
def readFixedRegion (r : BitReader) : Except Condition (Observation × List Nat × BitReader) :=
  match r.readFields [.ver, .kk, .obj] {} with
  | .error e => .error e
  | .ok (c, r1) =>
    match (if c.kk = 0 then
        match r1.read escapeWidth with
        | .error e => .error e
        | .ok (k8, r2) => .ok ({ c with kk := k8 }, r2)
      else .ok (c, r1) : Except Condition (Observation × BitReader)) with
    | .error e => .error e
    | .ok (c', r2) =>
      match r2.readFields laterFields c' with
      | .error e => .error e
      | .ok (c'', r3) =>
        match BitReader.readCodes sectWidth sectLen r3 with
        | .error e => .error e
        | .ok (sc, r4) => .ok (c'', sc, r4)

/-- The sector loop of phase 2 of R183: `MalformedField` at the lowest index whose code has no character (R188). -/
def sectChars (sd : SectDigit) : Nat → List Nat → Except Condition (List Byte)
  | _, [] => .ok []
  | i, c :: cs =>
    match sectChar sd c with
    | none => .error (.malformedField i c)
    | some ch =>
      match sectChars sd (i + 1) cs with
      | .error e => .error e
      | .ok chs => .ok (ch :: chs)

/-- The escape test on raw bytes, `B[1] mod 128 = 0` (R75, R184). -/
def escapeRecord (B : List Byte) : Bool := (byteAt B 1).toNat % 128 == 0

/-- `F` (R183): the size of the fixed region. -/
def fixedSize (B : List Byte) : Nat := if escapeRecord B then fixedEscape else fixedNormal

/-- Phase 3 of R183: the remark and `bytes_consumed`, after the three tests of R186 in order. -/
def frameRemark (B : List Byte) : Except Condition (List Byte × Nat) :=
  let F := fixedSize B
  if B.length < F + 1 then .error (.malformedRemark F none B.length)
  else
    let L := (byteAt B F).toNat
    if L > remarkMax then .error (.malformedRemark F (some L) B.length)
    else if B.length < F + 1 + L then .error (.malformedRemark F (some L) B.length)
    else .ok (memRead B (F + 1) L, F + 1 + L)

/-- `decode(bytes) -> (Observation, bytes_consumed)` (R183), its phases in order (R189). -/
def decodeRecord (sd : SectDigit) (B : List Byte) : Except Condition (Observation × Nat) :=
  if B.length < fixedNormal then .error (.truncatedRecord B.length)
  else
    match readFixedRegion (.load B) with
    | .error e => .error e
    | .ok (codes, sc, _) =>
      match sectChars sd 0 sc with
      | .error e => .error e
      | .ok chars =>
        match frameRemark B with
        | .error e => .error e
        | .ok (remark, consumed) => .ok (normalise (codes.mapFields decValue) chars remark, consumed)

/-- `DEC.DECODE bytes` (R183): no host-visible register changes (R27). -/
def execDecDecode (bytes : List Byte) (s : State) : Host.Outcome State Fault Refusal :=
  match decodeRecord Config.hw.sectDigit bytes with
  | .ok (x, consumed) => .next (s.succeed (.decoded x consumed))
  | .error c => .next (s.raise c)

end Sys2Proof.Machine
end

