-- ==== Sys2Proof/Machine/RecordEncoder.lean ====
section
/-! DEFINITION. The meaning of ENC.ENCODE (`42_record_encoder.md`). -/

namespace Sys2Proof.Machine

/-- Step 2 of R152: the observer id and the object type, with the escape byte when `kk > 99`. -/
def observerWrites (x : Observation) : List (Int × Nat) :=
  if x.kk > 99 then [(0, FieldId.width .kk), (x.obj, FieldId.width .obj), (x.kk, escapeWidth)]
  else [(x.kk, FieldId.width .kk), (x.obj, FieldId.width .obj)]

/-- The writes of R152 and R153 in order: 38 in format N, 39 in format E. -/
def recordWrites (sd : SectDigit) (x : Observation) : List (Int × Nat) :=
  [(x.ver, FieldId.width .ver)] ++ observerWrites x
    ++ laterFields.map (fun f => ((encCode f (x.get f) : Int), f.width))
    ++ (padSectors x.sectors).map (fun ch => ((sectCode sd ch : Int), sectWidth))

/-- `encode(observation) -> bytes` (R152): a private writer makes the fixed region, then the length byte and the remark
follow. With `BW_CAP >= 23` no condition arises (R152). -/
def encodeRecord (cfg : Config) (x : Observation) : Except Condition (List Byte) :=
  match BitWriter.writeAll cfg (recordWrites cfg.sectDigit x) .reset with
  | .error c => .error c
  | .ok w =>
    match w.flush with
    | .error c => .error c
    | .ok w' => .ok (w'.buf ++ [BitVec.ofNat 8 x.remark.length] ++ x.remark)

/-- `ENC.ENCODE x` (R152): no host-visible register changes (R27). An Observation outside the operand type (R32, R33)
cannot be presented and is refused (U9, log 11). -/
def execEncEncode (x : Observation) (s : State) : Host.Outcome State Fault Refusal :=
  if x.wf then
    match encodeRecord Config.hw x with
    | .ok b => .next (s.succeed (.bytes b))
    | .error c => .next (s.raise c)
  else .refused .observationTooLong

end Sys2Proof.Machine
end

