-- ==== Sys2Proof/Machine/RecordStream.lean ====
section
/-! DEFINITION. The meanings of RS.OPEN and RS.NEXT (`44_record_stream.md`), and the derived function RS.ALL (R216). -/

namespace Sys2Proof.Machine

/-- `RS.OPEN bytes` on the registers (R213); `err_off` and `err_cause` become unspecified, here free values of index
`k` (log 5). -/
def RecordStream.opened (bytes : List Byte) (k : Nat) : RecordStream :=
  { src := bytes, off := 0, status := .running, errOff := Config.freeErrOff k, errCause := Config.freeErrCause k }

/-- The chunk of R212. -/
def RecordStream.chunk (cfg : Config) (r : RecordStream) : List Byte :=
  memRead r.src r.off (min cfg.chunk (r.src.length - r.off))

/-- `RS.NEXT` on the registers (R214). -/
def RecordStream.next (cfg : Config) (r : RecordStream) : RecordStream × Result :=
  match r.status with
  | .ended => (r, .streamEnd)
  | .error => (r, .streamError r.errOff r.errCause)
  | .running =>
    match decodeRecord cfg.sectDigit (r.chunk cfg) with
    | .ok (x, consumed) => ({ r with off := r.off + consumed }, .item x)
    | .error e =>
      if e.endsStream then ({ r with status := .ended }, .streamEnd)
      else ({ r with errOff := r.off, errCause := e.code, status := .error }, .streamError r.off e.code)

/-- `RS.OPEN bytes` (R213): legal in every state. -/
def execRsOpen (bytes : List Byte) (s : State) : Host.Outcome State Fault Refusal :=
  .next ({ s with rs := .opened bytes s.free, free := s.free + 1 }.succeed .none)

/-- `RS.NEXT` (R214): raises nothing; `End` and `Error` are results (R102). -/
def execRsNext (s : State) : Host.Outcome State Fault Refusal :=
  match s.rs.next Config.hw with
  | (r, res) => .next ({ s with rs := r }.succeed res)

/-- How a stream ends (R216): `End(off)` or `Error(off, e)`. -/
inductive Terminal where
  | ended (off : Nat)
  | error (off : Nat) (cause : ConditionCode)
  deriving DecidableEq, Repr

/-- `RS.NEXT` repeated until the response is not an `Item`, at most `fuel` times; `none` if it has not ended by then. -/
def RecordStream.drain (cfg : Config) : Nat → RecordStream → Option (List Observation × Terminal)
  | 0, _ => none
  | fuel + 1, r =>
    match r.next cfg with
    | (r', .item x) =>
      match RecordStream.drain cfg fuel r' with
      | some (xs, t) => some (x :: xs, t)
      | none => none
    | (_, .streamError off e) => some ([], .error off e)
    | (r', _) => some ([], .ended r'.off)

/-- `RS.ALL(S)` (R216). R214 bounds the number of `RS.NEXT` operations by `m div 23 + 1` (log 20). -/
def streamAll (cfg : Config) (S : List Byte) : Option (List Observation × Terminal) :=
  RecordStream.drain cfg (S.length / recMin + 1) (.opened S 0)

end Sys2Proof.Machine
end

