-- ==== Sys2Proof/Machine/Dispatch.lean ====
section
/-! DEFINITION. One arm per operation of R99. -/

namespace Sys2Proof.Machine

def exec (i : Instr) (s : State) : Host.Outcome State Fault Refusal :=
  match i with
  | .bwInit => Sys2Proof.Machine.execBwInit s
  | .bwWrite value n => Sys2Proof.Machine.execBwWrite value n s
  | .bwFlush => Sys2Proof.Machine.execBwFlush s
  | .brLoad bytes => Sys2Proof.Machine.execBrLoad bytes s
  | .brRead n => Sys2Proof.Machine.execBrRead n s
  | .encEncode x => Sys2Proof.Machine.execEncEncode x s
  | .decDecode bytes => Sys2Proof.Machine.execDecDecode bytes s
  | .rsOpen bytes => Sys2Proof.Machine.execRsOpen bytes s
  | .rsNext => Sys2Proof.Machine.execRsNext s

end Sys2Proof.Machine
end

