-- ==== Sys2Proof/Machine/Port.lean ====
section
/-! DEFINITION. The command port (R98 to R100, R240). -/

namespace Sys2Proof.Machine

/-- The command port takes one command (R98): a legal word runs its operation; a reserved word raises
`IllegalCommand` before any unit is consulted (R100, R240); a payload of the wrong type cannot be issued (log 10). -/
def takeCommand (c : Command) (s : State) : Host.Outcome State Fault Refusal :=
  match decode c with
  | .ok i => exec i s
  | .error (.illegalCommand w) => .next (s.raise (.illegalCommand w))
  | .error (.payloadMismatch w) => .refused (.payloadMismatch w)

end Sys2Proof.Machine
end

