-- ==== Sys2Proof/Machine/Step.lean ====
section
/-! DEFINITION. One step: the block takes the oldest pending event of the host (R7, R60, log 1). -/

namespace Sys2Proof.Machine

/-- One step. With nothing pending the block is idle and "idle has no effect on state" (R251, log 3). -/
def step (s : State) : Host.Outcome State Fault Refusal :=
  match s.pending with
  | [] => .next s
  | .command c :: rest => takeCommand c { s with pending := rest }
  | .reset :: rest => .next (State.takeReset { s with pending := rest })

/-- The state in which the bare word `w` is the next command the block takes (log 13). -/
def State.withFetchWord (s : State) (nbits w : Nat) : State :=
  { s with pending := .command (bareCommand nbits w) :: s.pending }

end Sys2Proof.Machine
end

