-- ==== Sys2Proof/Safety.lean ====
section
/-! DEFINITION. What claims are stated in: the register invariant (R21 to R23, R28), the faithful set (R35), operations
run one after another (R60), and the fields of a record by their stream positions (R72). -/

namespace Sys2Proof

/-- The plain fields of R35, whose faithful range is `0 <= x[i] < 2^w`. -/
def plainFields : List FieldId :=
  [.obj, .year, .month, .day, .site, .hour, .minute, .dur, .cloud, .cirrus, .lowcloud, .halo, .region]

/-- The sentinel fields of R35, whose faithful range is `-1 <= x[i] <= 2^w - 2`. -/
def sentinelFields : List FieldId := [.bright, .color, .compl, .front, .precip, .upang, .loang]

/-- The sector alphabet (R87). -/
def inAlphabet (ch : Byte) : Bool :=
  ch == 0x20 || ch == 0x2F || ch == 0x2D || (0x30 ≤ ch.toNat && ch.toNat ≤ 0x39)

/-- The faithful range of each numeric field (R35). -/
def FieldId.faithful (f : FieldId) (v : Int) : Bool :=
  match f with
  | .ver => 0 ≤ v && v ≤ 255
  | .kk => 1 ≤ v && v ≤ 255
  | .dorg => [0, 1, 2, 4, 5, 6, 7, 255].contains v
  | f => if f.sentinel then -1 ≤ v && v ≤ ((2 ^ f.width : Nat) : Int) - 2
    else 0 ≤ v && v < ((2 ^ f.width : Nat) : Int)

/-- `Faithful(x)` (R35). -/
def Observation.faithful (x : Observation) : Bool :=
  FieldId.faithful .ver x.ver && FieldId.faithful .kk x.kk && FieldId.faithful .dorg x.dorg
    && plainFields.all (fun f => f.faithful (x.get f)) && sentinelFields.all (fun f => f.faithful (x.get f))
    && x.sectors.all inAlphabet && x.sectors.length ≤ sectLen && x.sectors.getLast? != some 0x20
    && x.remark.length ≤ remarkMax

end Sys2Proof

namespace Sys2Proof.Machine

/-! ### The invariant -/

/-- The BitWriter invariant (R21, R22). -/
structure BitWriter.Inv (w : BitWriter) : Prop where
  cnt_lt : w.cnt < 8
  acc_lt : w.acc.toNat < 2 ^ w.cnt
  closed_empty : w.closed = true → w.cnt = 0 ∧ w.acc = 0

/-- The BitReader invariant (R23). -/
structure BitReader.Inv (r : BitReader) : Prop where
  cur_le : r.cur ≤ 8 * r.src.length

/-- The decode conditions that end a stream in error (R214). -/
def ConditionCode.decodeFailure (c : ConditionCode) : Bool :=
  c == .unexpectedEndOfData || c == .malformedField || c == .malformedRemark

/-- The RecordStream invariant (R28, R214): the cursor stays in the source, at the end fewer than `FIXED_NORMAL` bytes
are left, and in error the registers say where and why. -/
structure RecordStream.Inv (r : RecordStream) : Prop where
  off_le : r.off ≤ r.src.length
  ended_stray : r.status = .ended → r.src.length - r.off < fixedNormal
  error_at : r.status = .error → r.errOff = r.off ∧ ConditionCode.decodeFailure r.errCause = true

/-- An Observation as the decoder returns one (R190): at most 15 sector characters with no trailing space, at most 60
remark bytes. -/
def normalObservation (x : Observation) : Bool := x.wf && x.sectors.getLast? != some space

/-- What a successful result may be (R133, R187, R190, R214). -/
def Result.inv : Result → Bool
  | .none => true
  | .bytes _ => true
  | .value n v => v < 2 ^ n
  | .decoded x k => normalObservation x && recMin ≤ k && k ≤ recMax
  | .item x => normalObservation x
  | .streamEnd => true
  | .streamError _ c => ConditionCode.decodeFailure c

/-- What the response port may hold. -/
def responseInv : Option Response → Bool
  | none => true
  | some (.ok r) => r.inv
  | some (.condition _) => true

/-- The invariant of the machine. -/
structure State.Inv (s : State) : Prop where
  bw : s.bw.Inv
  br : s.br.Inv
  rs : s.rs.Inv
  response : responseInv s.response = true

/-! ### Runs of operations -/

/-- Operations one after another, in issue order (R60); the responses are those of the operations, oldest first. -/
def runOps : List Instr → State → Host.Outcome (State × List (Option Response)) Fault Refusal
  | [], s => .next (s, [])
  | i :: is, s =>
    match exec i s with
    | .next t =>
      match runOps is t with
      | .next (u, rs) => .next (u, t.response :: rs)
      | .fault f => .fault f
      | .refused r => .refused r
    | .fault f => .fault f
    | .refused r => .refused r

/-- A `BW.WRITE` for each value and width. -/
def writeOps (ws : List (Int × Nat)) : List Instr := ws.map fun p => .bwWrite p.1 p.2

/-- The bits of a sequence of writes, in stream order (R114). -/
def writtenBits (ws : List (Int × Nat)) : List Bool := ws.flatMap fun p => valueBits p.1 p.2

/-- The number of bits of a sequence of writes. -/
def writtenLength (ws : List (Int × Nat)) : Nat := (ws.map Prod.snd).sum

/-- `Sum_j low_nj(vj) * 2^(o_j)` (R114), `o` the offset of the first write. -/
def writtenSum : List (Int × Nat) → Nat → Nat
  | [], _ => 0
  | (v, n) :: rest, o => lowBits n v * 2 ^ o + writtenSum rest (o + n)

/-! ### Records by stream position -/

/-- The `w`-bit code at stream bit `first` of a byte sequence (R72). -/
def codeAt (B : List Byte) (first w : Nat) : Nat := bitsToNat ((List.range w).map fun i => streamBit B (first + i))

/-- The first stream bit of each field of a format N record, as the table of R72 lists them (`kk` is `kk7`). -/
def firstBitNormal : FieldId → Nat
  | .ver => 0
  | .kk => 8
  | .obj => 15
  | .year => 18
  | .month => 25
  | .day => 29
  | .site => 34
  | .hour => 36
  | .minute => 41
  | .dorg => 47
  | .dur => 50
  | .cloud => 57
  | .cirrus => 61
  | .lowcloud => 64
  | .halo => 68
  | .bright => 75
  | .color => 78
  | .compl => 81
  | .front => 83
  | .precip => 87
  | .region => 94
  | .upang => 101
  | .loang => 108

/-- The first stream bit of each field of a format E record, as the table of R72 lists them (`kk` is `kk8`). -/
def firstBitEscape : FieldId → Nat
  | .ver => 0
  | .kk => 18
  | .obj => 15
  | .year => 26
  | .month => 33
  | .day => 37
  | .site => 42
  | .hour => 44
  | .minute => 49
  | .dorg => 55
  | .dur => 58
  | .cloud => 65
  | .cirrus => 69
  | .lowcloud => 72
  | .halo => 76
  | .bright => 83
  | .color => 86
  | .compl => 89
  | .front => 91
  | .precip => 95
  | .region => 102
  | .upang => 109
  | .loang => 116

/-- The code of a numeric field of a record in the given format (R72). -/
def fieldCode (escape : Bool) (B : List Byte) (f : FieldId) : Nat :=
  if escape then codeAt B (firstBitEscape f) (if f = .kk then 8 else f.width)
  else codeAt B (firstBitNormal f) f.width

/-- The sector code `sect[i]` of a record in the given format (R72). -/
def sectorCode (escape : Bool) (B : List Byte) (i : Nat) : Nat :=
  codeAt B ((if escape then 123 else 115) + 4 * i) 4

end Sys2Proof.Machine
end

