-- ==== Sys2Proof/Certificates/Slice0/Obligations.lean ====
section
/-! DEFINITION. The statements for the provers, each from a rule of the spec. `pending`, `response` and `free` are the
model's own fields (logs 1, 2, 5): where the spec says that nothing changes, `response` still takes the answer. -/

open Sys2Proof Sys2Proof.Machine

/-! ### Reset, commands and steps -/

/-- The invariant holds after reset. It constrains neither `err_off` and `err_cause` at reset (log 4) nor anything that
the model chose but the empty response (log 2). -/
def Obligations.ResetMeetsTheInvariant : Prop := State.reset.Inv

/-- R38 and R260: the stated reset values; BW.INIT, BR.LOAD of the empty sequence and RS.OPEN of the empty sequence
give them in any order, and so does a reset taken between operations. `err_off` and `err_cause` are unspecified and
not spoken of. That a reset is an event of the queue (log 1) and leaves the rest of the queue (log 14) is the model's
choice, so the last clause is no rule of the spec. -/
def Obligations.ResetEqualsTheThreeInitialisingOperations : Prop :=
  let AtReset (t : State) : Prop :=
    t.bw = { buf := [], acc := 0, cnt := 0, closed := false } ∧ t.br = { src := [], cur := 0 } ∧
      t.rs.src = [] ∧ t.rs.off = 0 ∧ t.rs.status = .running
  AtReset State.reset ∧
  (∀ (s : State) (ops : List Instr), ops.Perm [.bwInit, .brLoad [], .rsOpen []] →
    ∃ t rs, runOps ops s = .next (t, rs) ∧ AtReset t ∧ t.pending = s.pending) ∧
  (∀ (s : State) (rest : List HostEvent), s.pending = .reset :: rest →
    ∃ t, step s = .next t ∧ AtReset t ∧ t.pending = rest)

/-- R98 and R99: words written out from the format name the operation of their row. -/
def Obligations.WordsOfTheTableDecode : Prop :=
  decode ⟨0x1000, .none⟩ = .ok .bwInit ∧
  decode ⟨0x2807, .none⟩ = .ok (.bwWrite 7 8) ∧
  decode ⟨0x272C, .none⟩ = .ok (.bwWrite 44 7) ∧
  decode ⟨0x3000, .none⟩ = .ok .bwFlush ∧
  decode ⟨0x4000, .bytes [0xFD, 0x01]⟩ = .ok (.brLoad [0xFD, 0x01]) ∧
  decode ⟨0x5600, .none⟩ = .ok (.brRead 6) ∧
  decode ⟨0x6000, .observation { kk := 160 }⟩ = .ok (.encEncode { kk := 160 }) ∧
  decode ⟨0x7000, .bytes [0xEE]⟩ = .ok (.decDecode [0xEE]) ∧
  decode ⟨0x8000, .bytes []⟩ = .ok (.rsOpen []) ∧
  decode ⟨0x9000, .none⟩ = .ok .rsNext ∧
  decode ⟨0x2901, .none⟩ = .error (.illegalCommand 0x2901) ∧
  decode ⟨0x5801, .none⟩ = .error (.illegalCommand 0x5801)

/-- R60, R251: a step takes the oldest pending event. A command that decodes runs its operation on the state without
it; with nothing pending nothing changes. The queue and the idle step are the model's form of the two rules (logs 1, 3). -/
def Obligations.StepRunsTheDecodedOperation : Prop :=
  (∀ (s : State) (c : Command) (rest : List HostEvent) (i : Instr), s.pending = .command c :: rest →
    decode c = .ok i → step s = exec i { s with pending := rest }) ∧
  (∀ s : State, s.pending = [] → step s = .next s)

/-- R100, R237: exactly the reserved command words raise `IllegalCommand`, with the word, and nothing else changes. -/
def Obligations.ReservedWordsRaiseIllegalCommand : Prop :=
  ∀ (s : State) (c : Command) (rest : List HostEvent), s.pending = .command c :: rest →
    let op := c.word.toNat / 4096
    let n := c.word.toNat / 256 % 16
    let value := c.word.toNat % 256
    let reserved := op = 0 ∨ 10 ≤ op ∨ ((op = 2 ∨ op = 5) ∧ 8 < n) ∨ ((op ≠ 2 ∧ op ≠ 5) ∧ n ≠ 0) ∨ (op ≠ 2 ∧ value ≠ 0)
    (reserved → step s =
      .next { s with pending := rest, response := some (.condition (.illegalCommand c.word)) }) ∧
    (¬ reserved → decode c ≠ .error (.illegalCommand c.word))

/-- R98, R99: decoding an encoded well-formed operation gives it back, with every operand and payload. -/
def Obligations.DecodeInvertsEncode : Prop := ∀ i : Instr, i.wf = true → decode (encode i) = .ok i

/-- R98, R99: a command has one meaning, and encoding that meaning gives the command back. -/
def Obligations.EncodeInvertsDecode : Prop :=
  ∀ (c : Command) (i : Instr), decode c = .ok i → encode i = c

/-! ### Rules about every operation -/

/-- The register invariant of R21, R22, R23, R28, and the shape of responses, is kept by every step. -/
def Obligations.StepKeepsTheInvariant : Prop := ∀ s t : State, s.Inv → step s = .next t → t.Inv

/-- R263: every operation the port can carry is defined in every state and answers a response. -/
def Obligations.EveryOperationIsDefinedInEveryState : Prop :=
  ∀ (i : Instr) (s : State), i.wf = true → ∃ t r, exec i s = .next t ∧ t.response = some r

/-- R242: the state after a condition is exactly the state before the operation, for every operation and for every
command at the port, a reserved one too. -/
def Obligations.ConditionsArePrecise : Prop :=
  (∀ (i : Instr) (s t : State) (c : Condition), exec i s = .next t → t.response = some (.condition c) →
    t = { s with response := some (.condition c) }) ∧
  (∀ (m : Command) (s t : State) (c : Condition), takeCommand m s = .next t → t.response = some (.condition c) →
    t = { s with response := some (.condition c) })

/-- R27, R29, R65: each unit is changed only by its own operations, the pending commands by none. -/
def Obligations.UnitsAreChangedOnlyByTheirOwnOperations : Prop :=
  ∀ (i : Instr) (s t : State), exec i s = .next t →
    t.pending = s.pending ∧
    ((i = .bwInit ∨ (∃ v n, i = .bwWrite v n) ∨ i = .bwFlush) ∨ t.bw = s.bw) ∧
    (((∃ b, i = .brLoad b) ∨ ∃ n, i = .brRead n) ∨ t.br = s.br) ∧
    ((∃ n, i = .brRead n) → t.br.src = s.br.src) ∧
    (((∃ b, i = .rsOpen b) ∨ i = .rsNext) ∨ t.rs = s.rs) ∧
    (i = .rsNext → t.rs.src = s.rs.src) ∧
    ((∃ b, i = .rsOpen b) ∨ t.free = s.free)

/-- R25: `BW.closed` is set by a successful BW.FLUSH, cleared by BW.INIT, and written by no other operation. -/
def Obligations.ClosedFlagHasTwoWriters : Prop :=
  ∀ (i : Instr) (s t : State), exec i s = .next t →
    t.bw.closed = if i = .bwFlush then true else if i = .bwInit then false else s.bw.closed

/-- R230, R231: which operation raises which condition, and that `WriterClosed` is raised only by BW.WRITE and BW.FLUSH
on a closed writer. `WriterFull` does not arise in the unbounded instance (log 8). -/
def Obligations.ConditionsComeFromTheirOperations : Prop :=
  ∀ (i : Instr) (s t : State) (c : Condition), exec i s = .next t → t.response = some (.condition c) →
    (c.code = .writerClosed ∧ s.bw.closed = true ∧ ((∃ v n, i = .bwWrite v n) ∨ i = .bwFlush)) ∨
    (c.code = .unexpectedEndOfData ∧ ((∃ n, i = .brRead n) ∨ ∃ b, i = .decDecode b)) ∨
    ((c.code = .truncatedRecord ∨ c.code = .malformedRemark ∨ c.code = .malformedField) ∧ ∃ b, i = .decDecode b)

/-- R231, R270: BW.WRITE and BW.FLUSH on a closed writer raise `WriterClosed` and change nothing, until BW.INIT. -/
def Obligations.ClosedWriterStaysClosedUntilInit : Prop :=
  ∀ (s : State) (v w : Int) (n m : Nat), s.bw.closed = true →
    ∃ t, runOps [.bwWrite v n, .bwFlush, .bwInit, .bwWrite w m] s =
        .next (t, [some (.condition .writerClosed), some (.condition .writerClosed), some (.ok .none),
          some (.ok .none)]) ∧
      runOps [.bwWrite v n, .bwFlush] s =
        .next ({ s with response := some (.condition .writerClosed) },
          [some (.condition .writerClosed), some (.condition .writerClosed)]) ∧
      t.bw.stream = valueBits w m ∧ t.br = s.br ∧ t.rs = s.rs

/-! ### BitWriter -/

/-- R111, R132, R213: BW.INIT, BR.LOAD and RS.OPEN make their unit new in every state, and their command words. After
RS.OPEN `err_off` and `err_cause` are unspecified; the model draws them (log 5). -/
def Obligations.InitialisingOperationsMakeNewUnits : Prop :=
  ∀ (s : State) (b : List Byte),
    exec .bwInit s =
      .next { s with bw := { buf := [], acc := 0, cnt := 0, closed := false }, response := some (.ok .none) } ∧
    exec (.brLoad b) s = .next { s with br := { src := b, cur := 0 }, response := some (.ok .none) } ∧
    (∃ errOff errCause, exec (.rsOpen b) s =
      .next { s with
        rs := { src := b, off := 0, status := .running, errOff := errOff, errCause := errCause }
        free := s.free + 1
        response := some (.ok .none) }) ∧
    encode .bwInit = ⟨0x1000, .none⟩ ∧ encode (.brLoad b) = ⟨0x4000, .bytes b⟩ ∧
    encode (.rsOpen b) = ⟨0x8000, .bytes b⟩

/-- R112: BW.WRITE on an open writer completes, appends the low `n` bits of the value to the written stream, bit 0
first, and changes nothing else; completed bytes stay as they are, bit `i` goes to stream bit `T + i` (R65). -/
def Obligations.BwWriteAppendsTheLowBits : Prop :=
  ∀ (s : State) (v : Int) (n : Nat), s.bw.Inv → s.bw.closed = false →
    ∃ w : BitWriter, exec (.bwWrite v n) s = .next { s with bw := w, response := some (.ok .none) } ∧
      w.stream = s.bw.stream ++ (List.range n).map (fun i => bit v i) ∧
      w.Inv ∧ w.closed = false ∧
      w.buf.length = (8 * s.bw.buf.length + s.bw.cnt + n) / 8 ∧ w.cnt = (s.bw.cnt + n) % 8 ∧
      (∀ j, j < s.bw.buf.length → w.buf[j]? = s.bw.buf[j]?)

/-- R112, R116, R232: for any capacity, a write on an open writer raises `WriterFull (T, n)` exactly when it would need
more than `BW_CAP` bytes, and otherwise appends its bits and stays within the capacity; a closed writer raises
`WriterClosed` first. The instance itself is unbounded (log 8). -/
def Obligations.WriterFullExactlyPastTheCapacity : Prop :=
  ∀ (cfg : Config) (w : BitWriter) (v : Int) (n : Nat), w.Inv →
    (w.closed = true → w.write cfg v n = .error .writerClosed) ∧
    (∀ cap, w.closed = false → cfg.bwCap = some cap → cap < (w.written + n + 7) / 8 →
      w.write cfg v n = .error (.writerFull w.written n)) ∧
    (w.closed = false → (∀ cap, cfg.bwCap = some cap → (w.written + n + 7) / 8 ≤ cap) →
      ∃ w' : BitWriter, w.write cfg v n = .ok w' ∧ w'.Inv ∧ w'.closed = false ∧
        w'.stream = w.stream ++ (List.range n).map (fun i => bit v i) ∧
        ∀ cap, cfg.bwCap = some cap → w'.buf.length ≤ cap ∧ (0 < w'.cnt → w'.buf.length < cap))

/-- R115: writing `n1 + n2` bits is writing `n1` bits of the value and then `n2` bits of the value shifted. -/
def Obligations.BwWriteSplits : Prop :=
  ∀ (s : State) (v : Int) (n1 n2 : Nat),
    exec (.bwWrite v (n1 + n2)) s =
      match exec (.bwWrite v n1) s with
      | .next t => exec (.bwWrite (v / ((2 ^ n1 : Nat) : Int)) n2) t
      | .fault f => .fault f
      | .refused r => .refused r

/-- R112, R117, R119: bits at positions `n` and above are ignored, for every integer, negative ones too. -/
def Obligations.BwWriteIgnoresHighBits : Prop :=
  ∀ (s : State) (v k : Int) (n : Nat),
    exec (.bwWrite v n) s = exec (.bwWrite (lowBits n v) n) s ∧
    exec (.bwWrite (v + k * ((2 ^ n : Nat) : Int)) n) s = exec (.bwWrite v n) s

/-- R113: BW.FLUSH on an open writer returns the packed stream, pads with 0 bits to a byte, and closes; on a closed one
it raises `WriterClosed` and changes nothing. -/
def Obligations.BwFlushReturnsThePackedStream : Prop :=
  ∀ s : State, s.bw.Inv →
    (s.bw.closed = false →
      exec .bwFlush s = .next { s with
        bw := { buf := pack s.bw.stream, acc := 0, cnt := 0, closed := true }
        response := some (.ok (.bytes (pack s.bw.stream))) } ∧
      (pack s.bw.stream).length = (s.bw.written + 7) / 8 ∧
      unpack (pack s.bw.stream) = s.bw.stream ++ List.replicate ((8 - s.bw.written % 8) % 8) false ∧
      (∀ j, j < s.bw.buf.length → (pack s.bw.stream)[j]? = s.bw.buf[j]?)) ∧
    (s.bw.closed = true → exec .bwFlush s = .next { s with response := some (.condition .writerClosed) }) ∧
    encode .bwFlush = ⟨0x3000, .none⟩

/-- R114: writes and BW.FLUSH from the reset state of the writer, or after BW.INIT, return the packed bits of the
writes, the little-endian bytes of `Sum_j low_nj(vj) * 2^(o_j)`. -/
def Obligations.WritesThenFlushHaveTheClosedForm : Prop :=
  ∀ (s : State) (ws : List (Int × Nat)),
    ∃ (t : State) (B : List Byte),
      (s.bw = { buf := [], acc := 0, cnt := 0, closed := false } → runOps (writeOps ws ++ [.bwFlush]) s =
        .next (t, ws.map (fun _ => some (.ok .none)) ++ [some (.ok (.bytes B))])) ∧
      runOps (.bwInit :: writeOps ws ++ [.bwFlush]) s =
        .next (t, some (.ok .none) :: ws.map (fun _ => some (.ok .none)) ++ [some (.ok (.bytes B))]) ∧
      B = pack (writtenBits ws) ∧
      littleEndian B = writtenSum ws 0 ∧
      B.length = ((ws.map Prod.snd).sum + 7) / 8 ∧
      t = { s with
        bw := { buf := B, acc := 0, cnt := 0, closed := true }, response := some (.ok (.bytes B)) }

/-! ### BitReader -/

/-- R133: BR.READ returns the next `n` bits, first bit in bit 0 (R134: a slice of the little-endian integer of the
source), and moves the cursor by `n`, or raises `UnexpectedEndOfData (cur, n, len)` and moves nothing; its command
word at the port. -/
def Obligations.BrReadReturnsTheNextBits : Prop :=
  ∀ (s : State) (n : Nat),
    (s.br.cur + n ≤ 8 * s.br.src.length →
      exec (.brRead n) s = .next { s with
        br := { src := s.br.src, cur := s.br.cur + n }
        response := some (.ok (.value n (littleEndian s.br.src / 2 ^ s.br.cur % 2 ^ n))) }) ∧
    (8 * s.br.src.length < s.br.cur + n →
      exec (.brRead n) s = .next { s with
        response := some (.condition (.unexpectedEndOfData s.br.cur n s.br.src.length)) }) ∧
    littleEndian s.br.src / 2 ^ s.br.cur % 2 ^ n =
      ((List.range n).map fun i => (streamBit s.br.src (s.br.cur + i)).toNat * 2 ^ i).sum ∧
    (n ≤ 8 → encode (.brRead n) = ⟨BitVec.ofNat 16 (0x5000 + 256 * n), .none⟩)

/-- R52: reading `n1 + n2` bits as one value gives `a + 2^n1 * b`, `a` and `b` what two reads give. -/
def Obligations.BrReadJoins : Prop :=
  ∀ (s : State) (n1 n2 : Nat), s.br.cur + (n1 + n2) ≤ 8 * s.br.src.length →
    ∃ (t u : State) (a b : Nat),
      runOps [.brRead n1, .brRead n2] s = .next (t, [some (.ok (.value n1 a)), some (.ok (.value n2 b))]) ∧
      exec (.brRead (n1 + n2)) s = .next u ∧ u.response = some (.ok (.value (n1 + n2) (a + 2 ^ n1 * b))) ∧
      u.br = t.br

/-- R135: the reads of the widths written return the low bits written; the pad bits read 0; any further read fails. -/
def Obligations.ReaderInvertsWriter : Prop :=
  ∀ (s : State) (ws : List (Int × Nat)) (m : Nat), 0 < m →
    let T := (ws.map Prod.snd).sum
    let pad := (8 - T % 8) % 8
    ∃ (t : State) (B : List Byte),
      runOps (.bwInit :: writeOps ws ++ [.bwFlush]) s =
        .next (t, some (.ok .none) :: ws.map (fun _ => some (.ok .none)) ++ [some (.ok (.bytes B))]) ∧
      ∃ u : State,
        runOps (.brLoad B :: ws.map (fun p => .brRead p.2) ++ [.brRead pad, .brRead m]) t =
          .next (u, some (.ok .none) :: ws.map (fun p => some (.ok (.value p.2 (lowBits p.2 p.1)))) ++
            [some (.ok (.value pad 0)), some (.condition (.unexpectedEndOfData (8 * B.length) m B.length))])

/-! ### Field and sector codes -/

/-- R82, R83, R85: on the faithful range of a field the value comes back; `-1` is the top code of a sentinel field and
of no other field, 255 is code 3 of `dorg`. -/
def Obligations.FieldCodesReverse : Prop :=
  (∀ (f : FieldId) (v : Int), f ≠ .kk → f.faithful v = true → decValue f (encCode f v) = v) ∧
  (∀ (f : FieldId) (c : Nat), c < 2 ^ f.width →
    (decValue f c = -1 ↔ f ∈ sentinelFields ∧ c = 2 ^ f.width - 1) ∧
    (decValue f c = 255 ↔ (f = .dorg ∧ c = 3) ∨ (f = .ver ∧ c = 255))) ∧
  (∀ f ∈ sentinelFields, encCode f (-1) = 2 ^ f.width - 1) ∧ encCode .dorg 255 = 3 ∧ encCode .dorg 3 = 3

/-- R89, R90: for every admissible digit map the codes of the thirteen characters are those of the rule, a character of
the alphabet comes back, any other character has the space code, and exactly three codes have no character. -/
def Obligations.SectorCodesReverse : Prop :=
  ∀ sd : SectDigit, sd.Admissible →
    (sectCode sd 0x20 = 0 ∧ sectCode sd 0x2F = 9 ∧ sectCode sd 0x2D = 10 ∧
      ∀ d : Fin 10, sectCode sd (BitVec.ofNat 8 (0x30 + d.val)) = sd d) ∧
    (∀ ch : Byte, inAlphabet ch = true → sectChar sd (sectCode sd ch) = some ch ∧ sectCode sd ch < 16) ∧
    (∀ ch : Byte, inAlphabet ch = false → sectCode sd ch = 0) ∧
    ((List.range 16).filter fun c => (sectChar sd c).isNone).length = 3

/-- R34: a constructed Observation keeps its fields, loses trailing spaces of the sectors, keeps the first 60 bytes of
the remark, and is of the operand type of ENC.ENCODE; it is defined exactly when the trimmed sectors fit; what the
decoder returns is so constructed. -/
def Obligations.ConstructionNormalises : Prop :=
  ∀ (x : Observation) (sectorsIn remarkIn : List Byte),
    (∀ y, mkObs x sectorsIn remarkIn = some y →
      (∀ f, y.get f = x.get f) ∧ y.wf = true ∧ y.remark = remarkIn.take 60 ∧
      (∃ k, sectorsIn = y.sectors ++ List.replicate k 0x20) ∧ y.sectors.getLast? ≠ some 0x20) ∧
    (mkObs x sectorsIn remarkIn = none ↔ 15 < (rtrim sectorsIn).length) ∧
    (∀ sd B k, decodeRecord sd B = .ok (x, k) → mkObs x x.sectors x.remark = some x)

/-- R9: the derived sizes, each from the sum of the widths. -/
def Obligations.DerivedSizesHaveTheirValues : Prop :=
  bitsNormal = 175 ∧ bitsEscape = bitsNormal + 8 ∧ bitsEscape = 183 ∧
  fixedNormal = (bitsNormal + 7) / 8 ∧ fixedNormal = 22 ∧ fixedEscape = (bitsEscape + 7) / 8 ∧ fixedEscape = 23 ∧
  recMin = fixedNormal + 1 ∧ recMin = 23 ∧ recMax = fixedEscape + 1 + remarkMax ∧ recMax = 84

/-! ### RecordEncoder -/

/-- R154: ENC.ENCODE completes on every Observation of its operand type, changes no register, and returns
`23 + len(remark)` bytes, 24 with the escape byte. -/
def Obligations.EncodeReturnsARecordOfTheStatedLength : Prop :=
  ∀ (s : State) (x : Observation), x.wf = true →
    ∃ B : List Byte, exec (.encEncode x) s = .next { s with response := some (.ok (.bytes B)) } ∧
      (x.kk ≤ 99 → B.length = 23 + x.remark.length) ∧ (99 < x.kk → B.length = 24 + x.remark.length)

/-- R72, R77, R84, R86, R91, R93, R94: every part of the record stands at its stream position. -/
def Obligations.EncodedFieldsStandAtTheirPositions : Prop :=
  ∀ (s t : State) (x : Observation) (B : List Byte), x.wf = true →
    exec (.encEncode x) s = .next t → t.response = some (.ok (.bytes B)) →
    let esc := decide (99 < x.kk)
    let F := if 99 < x.kk then 23 else 22
    codeAt B 8 7 = (if 99 < x.kk then 0 else lowBits 7 x.kk) ∧
    (99 < x.kk → codeAt B 18 8 = lowBits 8 x.kk) ∧
    (∀ f, f ≠ .kk → fieldCode esc B f = encCode f (x.get f)) ∧
    (∀ i, i < 15 → sectorCode esc B i =
      sectCode Config.hw.sectDigit (if h : i < x.sectors.length then x.sectors[i] else 0x20)) ∧
    streamBit B (8 * F - 1) = false ∧
    (byteAt B F).toNat = x.remark.length ∧
    B.drop (F + 1) = x.remark

/-- R158: on the faithful set ENC.ENCODE is injective; outside it the rule's pairs encode to the same bytes. -/
def Obligations.EncodeIsInjectiveOnTheFaithfulSet : Prop :=
  (∀ (sd : SectDigit) (cfg : Config) (x y : Observation) (B : List Byte), sd.Admissible → cfg.sectDigit = sd →
    x.faithful = true → y.faithful = true → encodeRecord cfg x = .ok B → encodeRecord cfg y = .ok B → x = y) ∧
  (∀ (cfg : Config) (x : Observation),
    encodeRecord cfg { x with dorg := 3 } = encodeRecord cfg { x with dorg := 255 } ∧
    encodeRecord cfg { x with bright := 7 } = encodeRecord cfg { x with bright := -1 } ∧
    encodeRecord cfg { x with year := 98 } = encodeRecord cfg { x with year := 226 } ∧
    encodeRecord cfg { x with sectors := [0x61] } = encodeRecord cfg { x with sectors := [0x20] } ∧
    encodeRecord cfg { x with sectors := [0x61] } = encodeRecord cfg { x with sectors := [] })

/-! ### RecordDecoder -/

/-- R183: a buffer that holds a whole record whose sector codes have characters decodes, changing no register, to the
fields at their stream positions, the trimmed sectors, the remark, and the record's length. -/
def Obligations.DecodeReadsTheFieldsAtTheirPositions : Prop :=
  ∀ (s : State) (B : List Byte) (chars : List Byte),
    let esc := (byteAt B 1).toNat % 128 == 0
    let F := if esc then 23 else 22
    let L := (byteAt B F).toNat
    F + 1 + L ≤ B.length → L ≤ 60 → chars.length = 15 →
    (∀ i, (h : i < chars.length) → sectChar Config.hw.sectDigit (sectorCode esc B i) = some chars[i]) →
    ∃ x : Observation, exec (.decDecode B) s = .next { s with response := some (.ok (.decoded x (F + 1 + L))) } ∧
      (∀ f, x.get f = decValue f (fieldCode esc B f)) ∧
      (∃ k, chars = x.sectors ++ List.replicate k 0x20) ∧ x.sectors.getLast? ≠ some 0x20 ∧
      x.remark = (B.drop (F + 1)).take L

/-- R137, R182, R186, R188, R189: the conditions of DEC.DECODE, each with its record, in their order. -/
def Obligations.DecodeConditionsInTheirOrder : Prop :=
  ∀ (s : State) (B : List Byte),
    let esc := (byteAt B 1).toNat % 128 == 0
    let F := if esc then 23 else 22
    let L := (byteAt B F).toNat
    let raises (c : Condition) : Prop := exec (.decDecode B) s = .next { s with response := some (.condition c) }
    (B.length < 22 → raises (.truncatedRecord B.length)) ∧
    (B.length = 22 → esc = true → raises (.unexpectedEndOfData 175 4 22)) ∧
    (F ≤ B.length → ∀ i, i < 15 → sectChar Config.hw.sectDigit (sectorCode esc B i) = none →
      (∀ j, j < i → (sectChar Config.hw.sectDigit (sectorCode esc B j)).isSome) →
      raises (.malformedField i (sectorCode esc B i))) ∧
    (F ≤ B.length → (∀ j, j < 15 → (sectChar Config.hw.sectDigit (sectorCode esc B j)).isSome) →
      (B.length < F + 1 → raises (.malformedRemark F none B.length)) ∧
      (F + 1 ≤ B.length → 60 < L ∨ B.length < F + 1 + L → raises (.malformedRemark F (some L) B.length)))

/-- R185: once phase 0 has passed and the fixed region is read, the reader's cursor and the raw-byte test give the same region size. -/
def Obligations.CursorAndRawByteAgreeOnTheRegionSize : Prop :=
  ∀ (B : List Byte) (c : Observation) (sc : List Nat) (r : BitReader), 22 ≤ B.length →
    readFixedRegion (.load B) = .ok (c, sc, r) →
    fixedSize B = (r.cur + 7) / 8 ∧
    ((byteAt B 1).toNat % 128 = 0 → r.cur = 183 ∧ fixedSize B = 23) ∧
    ((byteAt B 1).toNat % 128 ≠ 0 → r.cur = 175 ∧ fixedSize B = 22)

/-- R192: an encoded faithful Observation, followed by any bytes, decodes to itself with the record's length, for every
admissible digit map and as the operations of the machine. -/
def Obligations.DecodeInvertsEncodeOnTheFaithfulSet : Prop :=
  (∀ (cfg : Config) (x : Observation) (B T : List Byte), cfg.sectDigit.Admissible → x.faithful = true →
    encodeRecord cfg x = .ok B → decodeRecord cfg.sectDigit (B ++ T) = .ok (x, B.length)) ∧
  (∀ (s : State) (x : Observation) (T : List Byte), x.faithful = true →
    ∃ B : List Byte, exec (.encEncode x) s = .next { s with response := some (.ok (.bytes B)) } ∧
      exec (.decDecode (B ++ T)) s = .next { s with response := some (.ok (.decoded x B.length)) })

/-- R193: outside the faithful set the round trip gives the normal form. -/
def Obligations.RoundTripGivesTheNormalForm : Prop :=
  ∀ (cfg : Config) (x : Observation), cfg.sectDigit.Admissible → cfg.bwCap = none → x.wf = true →
    (lowBits 7 x.kk ≠ 0 ∨ x.kk > 99) →
    ∃ (B : List Byte) (y : Observation), encodeRecord cfg x = .ok B ∧
      decodeRecord cfg.sectDigit B = .ok (y, B.length) ∧
      (∀ f, f ≠ .kk → y.get f = decValue f (encCode f (x.get f))) ∧
      y.kk = (if x.kk > 99 then lowBits 8 x.kk else lowBits 7 x.kk) ∧
      y.sectors = rtrim (x.sectors.map fun ch => if inAlphabet ch then ch else 0x20) ∧
      y.remark = x.remark

/-- R191 and R187: the ranges of a decoded Observation and of `bytes_consumed`. -/
def Obligations.DecodedValuesStayInRange : Prop :=
  ∀ (sd : SectDigit) (B : List Byte) (x : Observation) (k : Nat), decodeRecord sd B = .ok (x, k) →
    let esc := (byteAt B 1).toNat % 128 == 0
    (0 ≤ x.ver ∧ x.ver ≤ 255) ∧
    (if esc then 0 ≤ x.kk ∧ x.kk ≤ 255 else 1 ≤ x.kk ∧ x.kk ≤ 127) ∧
    (∀ f ∈ plainFields, 0 ≤ x.get f ∧ x.get f < ((2 ^ f.width : Nat) : Int)) ∧
    x.dorg ∈ ([0, 1, 2, 255, 4, 5, 6, 7] : List Int) ∧
    (∀ f ∈ sentinelFields, -1 ≤ x.get f ∧ x.get f ≤ ((2 ^ f.width : Nat) : Int) - 2) ∧
    x.sectors.length ≤ 15 ∧ x.sectors.getLast? ≠ some 0x20 ∧ x.remark.length ≤ 60 ∧
    k = (if esc then 24 else 23) + x.remark.length ∧ k ≤ B.length

/-- R181, R97 (last row): bytes after the record are ignored, whatever they are. -/
def Obligations.DecodeIgnoresWhatFollowsTheRecord : Prop :=
  ∀ (s : State) (B T : List Byte) (x : Observation) (k : Nat),
    exec (.decDecode B) s = .next { s with response := some (.ok (.decoded x k)) } →
    exec (.decDecode (B.take k ++ T)) s = .next { s with response := some (.ok (.decoded x k)) }

/-- R194: the outcome on a buffer that is a prefix of a canonical record or extends one, by its length. -/
def Obligations.DecodeOutcomeByBufferLength : Prop :=
  ∀ (cfg : Config) (x : Observation) (B T : List Byte) (m : Nat), cfg.sectDigit.Admissible → x.wf = true →
    (lowBits 7 x.kk ≠ 0 ∨ x.kk > 99) → encodeRecord cfg x = .ok B → m ≤ (B ++ T).length →
    let L := x.remark.length
    let d := decodeRecord cfg.sectDigit ((B ++ T).take m)
    (m < 22 → d = .error (.truncatedRecord m)) ∧
    (x.kk ≤ 99 →
      (m = 22 → d = .error (.malformedRemark 22 none 22)) ∧
      (23 ≤ m → m < 23 + L → d = .error (.malformedRemark 22 (some L) m)) ∧
      (23 + L ≤ m → ∃ y, d = .ok (y, 23 + L))) ∧
    (99 < x.kk →
      (m = 22 → d = .error (.unexpectedEndOfData 175 4 22)) ∧
      (m = 23 → d = .error (.malformedRemark 23 none 23)) ∧
      (24 ≤ m → m < 24 + L → d = .error (.malformedRemark 23 (some L) m)) ∧
      (24 + L ≤ m → ∃ y, d = .ok (y, 24 + L)))

/-- R271: a record encoded with an observer id whose low seven bits are 0 and that is not above 99 is taken as format E
by every decode: `kk` is the year code and the low bit of the month, every later field is read 8 bits late, and the
length byte is byte 23. -/
def Obligations.ObserverIdZeroMisframesTheRecord : Prop :=
  ∀ (cfg : Config) (x y : Observation) (B T : List Byte) (k : Nat), x.wf = true → x.kk ≤ 99 → lowBits 7 x.kk = 0 →
    encodeRecord cfg x = .ok B →
    (byteAt (B ++ T) 1).toNat % 128 = 0 ∧
    (decodeRecord cfg.sectDigit (B ++ T) = .ok (y, k) →
      y.kk = lowBits 7 x.year + 128 * (lowBits 1 x.month : Int) ∧
      (∀ f ∈ laterFields, y.get f = decValue f (codeAt (B ++ T) (firstBitNormal f + 8) f.width)) ∧
      k = 24 + (byteAt (B ++ T) 23).toNat)

/-! ### RecordStream -/

/-- R214, R221: RS.NEXT on a running stream answers by the decode of the rest of the source. An `Item` moves the cursor
by the record's length, at least 23 and never past the source; fewer than 22 bytes left end the stream; any other
condition is an error at the cursor, which stays; the cause is the condition's code alone (log 6). -/
def Obligations.RsNextAnswersByTheRestOfTheSource : Prop :=
  ∀ s : State, s.rs.status = .running → s.rs.off ≤ s.rs.src.length →
    let rest := s.rs.src.drop s.rs.off
    (∀ x k, decodeRecord Config.hw.sectDigit rest = .ok (x, k) →
      exec .rsNext s = .next { s with
        rs := { s.rs with off := s.rs.off + k }, response := some (.ok (.item x)) } ∧
      23 ≤ k ∧ s.rs.off + k ≤ s.rs.src.length) ∧
    (∀ m, decodeRecord Config.hw.sectDigit rest = .error (.truncatedRecord m) →
      exec .rsNext s = .next { s with
        rs := { s.rs with status := .ended }, response := some (.ok .streamEnd) } ∧
      s.rs.src.length - s.rs.off ≤ 21) ∧
    (∀ e, decodeRecord Config.hw.sectDigit rest = .error e → (∀ m, e ≠ .truncatedRecord m) →
      exec .rsNext s = .next { s with
        rs := { s.rs with status := .error, errOff := s.rs.off, errCause := e.code }
        response := some (.ok (.streamError s.rs.off e.code)) } ∧
      22 ≤ s.rs.src.length - s.rs.off)

/-- R215: in a terminal state RS.NEXT gives the same response every time and changes nothing, and no step but a reset or
an RS.OPEN changes the stream's registers. -/
def Obligations.TerminalStatesAbsorb : Prop :=
  (∀ s : State, s.rs.status ≠ .running →
    ∃ r : Response, exec .rsNext s = .next { s with response := some r } ∧
      exec .rsNext { s with response := some r } = .next { s with response := some r } ∧
      (s.rs.status = .ended → r = .ok .streamEnd) ∧
      (s.rs.status = .error → r = .ok (.streamError s.rs.errOff s.rs.errCause))) ∧
  (∀ s t : State, s.rs.status ≠ .running → step s = .next t → s.pending.head? ≠ some .reset →
    (∀ c b, s.pending.head? = some (.command c) → decode c ≠ .ok (.rsOpen b)) → t.rs = s.rs)

/-- R217, R218: a source of encoded faithful Observations, followed by 0 to 21 bytes, gives them in order and ends at
the end of the last record, for every chunk of at least 84 bytes and every admissible digit map. -/
def Obligations.StreamOfRecordsGivesThemInOrder : Prop :=
  ∀ (cfg : Config) (xs : List Observation) (Bs : List (List Byte)) (T : List Byte), 84 ≤ cfg.chunk →
    cfg.sectDigit.Admissible → (∀ x ∈ xs, x.faithful = true) → xs.map (encodeRecord cfg) = Bs.map .ok →
    T.length ≤ 21 → streamAll cfg (Bs.flatten ++ T) = some (xs, .ended Bs.flatten.length)

/-- R219: when the source ends inside a record, fewer than 22 of its bytes end the stream and 22 or more are an error at
the record's offset; the records before it are returned in order. -/
def Obligations.CutFinalRecordIsEndOrErrorByItsLength : Prop :=
  ∀ (cfg : Config) (xs : List Observation) (Bs : List (List Byte)) (y : Observation) (Y : List Byte) (m : Nat),
    84 ≤ cfg.chunk → cfg.sectDigit.Admissible → (∀ x ∈ xs, x.faithful = true) →
    xs.map (encodeRecord cfg) = Bs.map .ok → y.wf = true → (lowBits 7 y.kk ≠ 0 ∨ y.kk > 99) →
    encodeRecord cfg y = .ok Y → m < Y.length →
    let off := Bs.flatten.length
    let out := streamAll cfg (Bs.flatten ++ Y.take m)
    (m ≤ 21 → out = some (xs, .ended off)) ∧
    (22 ≤ m → out = some (xs, .error off .malformedRemark) ∨ out = some (xs, .error off .unexpectedEndOfData))

/-- R216, R214: every stream ends, within `m div 23 + 1` operations over `m` bytes, with the final cursor inside the
source and the Observations normal. -/
def Obligations.EveryStreamEnds : Prop :=
  ∀ (cfg : Config) (S : List Byte), 84 ≤ cfg.chunk →
    ∃ xs e, streamAll cfg S = some (xs, e) ∧ 23 * xs.length ≤ S.length ∧
      (∀ x ∈ xs, normalObservation x = true) ∧
      match e with
      | .ended off => off ≤ S.length ∧ S.length - off ≤ 21
      | .error off c => off ≤ S.length ∧ 22 ≤ S.length - off ∧ ConditionCode.decodeFailure c = true

/-- R221: for every chunk of at least 84 bytes RS.NEXT gives the same response and the same next state as with the whole
rest of the source. The cause in an `Error` is the condition's code alone (log 6, read from this rule among others). -/
def Obligations.ChunkSizeIsUnobservable : Prop :=
  ∀ (cfg : Config) (r : RecordStream), 84 ≤ cfg.chunk → r.next cfg = r.next { cfg with chunk := r.src.length }
end

