-- ==== Sys2Proof/Laws/Bits.lean ====
section
/-! SUPPORT. Numbers, bits and bytes (R10 to R13): what the bit and packing functions compute. -/

namespace Sys2Proof.Machine

/-! ### Numbers and bits -/

@[simp] theorem bitsToNat_nil : bitsToNat [] = 0 := rfl

@[simp] theorem bitsToNat_cons (b : Bool) (bs : List Bool) :
    bitsToNat (b :: bs) = b.toNat + 2 * bitsToNat bs := rfl

theorem bitsToNat_append (a b : List Bool) : bitsToNat (a ++ b) = bitsToNat a + 2 ^ a.length * bitsToNat b := by
  induction a with
  | nil => simp
  | cons x a ih => simp [ih, pow_succ]; ring

theorem bitsToNat_lt (a : List Bool) : bitsToNat a < 2 ^ a.length := by
  induction a with
  | nil => simp
  | cons x a ih => have : x.toNat ≤ 1 := Bool.toNat_le x; simp [pow_succ]; omega

theorem testBit_bitsToNat (a : List Bool) (k : Nat) : (bitsToNat a).testBit k = a.getD k false := by
  induction a generalizing k with
  | nil => simp
  | cons x a ih =>
    cases k with
    | zero => cases x <;> simp [Nat.testBit_zero]
    | succ k =>
      have h : (x.toNat + 2 * bitsToNat a) / 2 = bitsToNat a := by
        have : x.toNat ≤ 1 := Bool.toNat_le x
        omega
      rw [bitsToNat_cons, Nat.testBit_succ, h, ih]; simp

/-- A list of bits is determined by its length and its number. -/
theorem bitsToNat_inj {a b : List Bool} (hl : a.length = b.length) (h : bitsToNat a = bitsToNat b) : a = b := by
  apply List.ext_getElem hl
  intro i h1 h2
  have := congrArg (fun n => Nat.testBit n i) h
  simpa [testBit_bitsToNat, List.getD_eq_getElem?_getD, h1, h2] using this

theorem bitsToNat_map_testBit (N n : Nat) : bitsToNat ((List.range n).map N.testBit) = N % 2 ^ n := by
  apply Nat.eq_of_testBit_eq
  intro k
  rw [testBit_bitsToNat, Nat.testBit_mod_two_pow]
  by_cases h : k < n <;> simp [h, List.getD_eq_getElem?_getD]

theorem lowBits_lt (n : Nat) (v : Int) : lowBits n v < 2 ^ n := by
  have h0 : (0 : Int) < ((2 ^ n : Nat) : Int) := by positivity
  have h1 := Int.emod_lt_of_pos v h0
  have h2 := Int.emod_nonneg v h0.ne'
  unfold lowBits; omega

theorem lowBits_cast (n : Nat) (v : Int) : (lowBits n v : Int) = v % ((2 ^ n : Nat) : Int) := by
  have h0 : (0 : Int) < ((2 ^ n : Nat) : Int) := by positivity
  have h2 := Int.emod_nonneg v h0.ne'
  unfold lowBits; omega

theorem lowBits_of_range {n : Nat} {v : Int} (h0 : 0 ≤ v) (h1 : v < ((2 ^ n : Nat) : Int)) : (lowBits n v : Int) = v := by
  rw [lowBits_cast, Int.emod_eq_of_lt h0 h1]

theorem lowBits_lowBits (n : Nat) (v : Int) : lowBits n (lowBits n v : Int) = lowBits n v := by
  have := lowBits_of_range (n := n) (v := (lowBits n v : Int)) (by omega) (by exact_mod_cast lowBits_lt n v)
  exact_mod_cast this

/-- The bits of a value below `n` are those of its low `n` bits. -/
theorem bit_eq_testBit {v : Int} {n i : Nat} (h : i < n) : bit v i = (lowBits n v).testBit i := by
  have hc := lowBits_cast n v
  generalize lowBits n v = N at hc
  have hi : ((2 ^ i : Nat) : Int) ≠ 0 := by positivity
  have hn : ((2 ^ n : Nat) : Int) = ((2 ^ i : Nat) : Int) * (2 * ((2 ^ (n - i - 1) : Nat) : Int)) := by
    have : n = i + 1 + (n - i - 1) := by omega
    conv_lhs => rw [this, pow_add, pow_add]
    push_cast; ring
  have hv : v = (N : Int) + ((2 ^ i : Nat) : Int) * (2 * ((2 ^ (n - i - 1) : Nat) : Int) * (v / ((2 ^ n : Nat) : Int))) := by
    have := Int.emod_add_mul_ediv v ((2 ^ n : Nat) : Int)
    rw [← hc] at this
    rw [← mul_assoc, ← hn]; exact this.symm
  have hd : v / ((2 ^ i : Nat) : Int) % 2 = ((N / 2 ^ i % 2 : Nat) : Int) := by
    rw [hv, Int.add_mul_ediv_left _ _ hi, mul_assoc, Int.add_mul_emod_self_left]
    push_cast; rfl
  rw [bit, hd, Nat.testBit_eq_decide_div_mod_eq]
  have := Nat.mod_two_eq_zero_or_one (N / 2 ^ i)
  rcases this with h | h <;> simp [h]

@[simp] theorem valueBits_length (v : Int) (n : Nat) : (valueBits v n).length = n := by simp [valueBits]

@[simp] theorem valueBits_zero (v : Int) : valueBits v 0 = [] := rfl

theorem valueBits_eq (v : Int) (n : Nat) : valueBits v n = (List.range n).map (lowBits n v).testBit := by
  unfold valueBits
  apply List.map_congr_left
  intro i hi
  exact bit_eq_testBit (List.mem_range.mp hi)

/-- The bits that a write emits are the binary form of the low bits of its value (R51, R112). -/
theorem bitsToNat_valueBits (v : Int) (n : Nat) : bitsToNat (valueBits v n) = lowBits n v := by
  rw [valueBits_eq, bitsToNat_map_testBit, Nat.mod_eq_of_lt (lowBits_lt n v)]

theorem bit_add (v : Int) (m i : Nat) : bit v (m + i) = bit (v / ((2 ^ m : Nat) : Int)) i := by
  unfold bit
  rw [Int.ediv_ediv_of_nonneg (by positivity), pow_add]
  push_cast; rfl

/-- A write may be cut in two (R115). -/
theorem valueBits_add (v : Int) (n m : Nat) :
    valueBits v (n + m) = valueBits v n ++ valueBits (v / ((2 ^ n : Nat) : Int)) m := by
  simp only [valueBits, List.range_add, List.map_append, List.map_map]
  congr 1
  apply List.map_congr_left
  intro i _
  exact bit_add v n i

/-! ### Bytes and bits -/

@[simp] theorem unpack_nil : unpack [] = [] := rfl

@[simp] theorem unpack_length (B : List Byte) : (unpack B).length = 8 * B.length := by simp [unpack]

theorem streamBit_cons_lt (b : Byte) (B : List Byte) {k : Nat} (h : k < 8) :
    streamBit (b :: B) k = b.getLsbD k := by
  simp [streamBit, byteAt, Nat.div_eq_of_lt h, Nat.mod_eq_of_lt h]

theorem streamBit_cons_add (b : Byte) (B : List Byte) (k : Nat) : streamBit (b :: B) (8 + k) = streamBit B k := by
  have h1 : (8 + k) / 8 = k / 8 + 1 := by omega
  have h2 : (8 + k) % 8 = k % 8 := by omega
  simp [streamBit, byteAt, h1, h2]

theorem unpack_cons (b : Byte) (B : List Byte) : unpack (b :: B) = (List.range 8).map (b.getLsbD ·) ++ unpack B := by
  have : 8 * (b :: B).length = 8 + 8 * B.length := by simp; ring
  unfold unpack
  rw [this, List.range_add, List.map_append, List.map_map]
  refine congrArg₂ (· ++ ·) ?_ ?_
  · apply List.map_congr_left
    intro k hk
    exact streamBit_cons_lt b B (List.mem_range.mp hk)
  · apply List.map_congr_left
    intro k _
    exact streamBit_cons_add b B k

theorem unpack_append (A B : List Byte) : unpack (A ++ B) = unpack A ++ unpack B := by
  induction A with
  | nil => simp
  | cons a A ih => rw [List.cons_append, unpack_cons, unpack_cons, ih, List.append_assoc]

theorem bitsToNat_byte (b : Byte) : bitsToNat ((List.range 8).map (b.getLsbD ·)) = b.toNat := by
  have : (fun i => b.getLsbD i) = b.toNat.testBit := rfl
  rw [this, bitsToNat_map_testBit, Nat.mod_eq_of_lt b.isLt]

/-- The integer of a sequence is that of its bits (R134). -/
theorem bitsToNat_unpack (B : List Byte) : bitsToNat (unpack B) = littleEndian B := by
  induction B with
  | nil => rfl
  | cons b B ih => rw [unpack_cons, bitsToNat_append, bitsToNat_byte, ih]; simp [littleEndian]

theorem unpack_getD (B : List Byte) (k : Nat) : (unpack B).getD k false = streamBit B k := by
  by_cases h : k < 8 * B.length
  · simp [unpack, List.getD_eq_getElem?_getD, h]
  · have : B.length ≤ k / 8 := by omega
    simp [unpack, List.getD_eq_getElem?_getD, h, streamBit, byteAt, this]

theorem streamBit_eq_testBit (B : List Byte) (k : Nat) : streamBit B k = (littleEndian B).testBit k := by
  rw [← bitsToNat_unpack, testBit_bitsToNat, unpack_getD]

/-- Bits at a position are a slice of the little-endian integer (R134). -/
theorem bitsToNat_stream (B : List Byte) (o n : Nat) :
    bitsToNat ((List.range n).map fun i => streamBit B (o + i)) = littleEndian B / 2 ^ o % 2 ^ n := by
  have : (fun i => streamBit B (o + i)) = (littleEndian B / 2 ^ o).testBit := by
    funext i
    rw [streamBit_eq_testBit, Nat.testBit_div_two_pow, Nat.add_comm]
  rw [this, bitsToNat_map_testBit]

theorem littleEndian_lt (B : List Byte) : littleEndian B < 2 ^ (8 * B.length) := by
  rw [← bitsToNat_unpack]; simpa using bitsToNat_lt (unpack B)

theorem littleEndian_append (A B : List Byte) :
    littleEndian (A ++ B) = littleEndian A + 2 ^ (8 * A.length) * littleEndian B := by
  rw [← bitsToNat_unpack, ← bitsToNat_unpack, ← bitsToNat_unpack, unpack_append, bitsToNat_append, unpack_length]

/-- A byte sequence is determined by its length and its bits. -/
theorem unpack_inj {A B : List Byte} (h : unpack A = unpack B) : A = B := by
  have hl : A.length = B.length := by have := congrArg List.length h; simp at this; omega
  apply List.ext_getElem hl
  intro j h1 h2
  apply BitVec.eq_of_getLsbD_eq
  intro i hi
  have := congrArg (fun l => l.getD (8 * j + i) false) h
  simp only [unpack_getD, streamBit, byteAt] at this
  have e1 : (8 * j + i) / 8 = j := by omega
  have e2 : (8 * j + i) % 8 = i := by omega
  simpa [e1, e2, List.getD_eq_getElem?_getD, h1, h2] using this

/-! ### Packing (R13) -/

@[simp] theorem pack_length (s : List Bool) : (pack s).length = (s.length + 7) / 8 := by simp [pack]

theorem streamBit_pack (s : List Bool) (k : Nat) : streamBit (pack s) k = s.getD k false := by
  by_cases h : k / 8 < (s.length + 7) / 8
  · have h8 : k % 8 < 8 := Nat.mod_lt _ (by omega)
    simp only [streamBit, byteAt, pack, List.getD_eq_getElem?_getD, List.getElem?_map, List.getElem?_range h,
      Option.map_some, Option.getD_some]
    rw [BitVec.getLsbD_ofNat, testBit_bitsToNat]
    have : 8 * (k / 8) + k % 8 = k := by omega
    simp [List.getD_eq_getElem?_getD, List.getElem?_drop, h8, this]
  · have h2 : s.length ≤ k := by omega
    have : (pack s).length ≤ k / 8 := by simp; omega
    rw [streamBit, byteAt, List.getD_eq_getElem?_getD, List.getElem?_eq_none this]
    simp [List.getD_eq_getElem?_getD, h2]

/-- Unpacking a packed stream gives it back with its zero padding. -/
theorem unpack_pack (s : List Bool) :
    unpack (pack s) = s ++ List.replicate ((8 - s.length % 8) % 8) false := by
  have hl : 8 * ((s.length + 7) / 8) = s.length + (8 - s.length % 8) % 8 := by omega
  apply List.ext_getElem
  · simp [hl]
  · intro k h1 h2
    have h3 := unpack_getD (pack s) k
    rw [streamBit_pack] at h3
    rw [List.getD_eq_getElem _ _ h1] at h3
    rw [h3]
    by_cases hk : k < s.length
    · simp [List.getD_eq_getElem?_getD, hk]
    · simp [List.getD_eq_getElem?_getD, hk, Nat.le_of_not_lt hk]

@[simp] theorem pack_unpack (B : List Byte) : pack (unpack B) = B := by
  apply unpack_inj
  rw [unpack_pack]
  simp

/-- Whole bytes come out as they are; only the rest is packed. -/
theorem pack_unpack_append (B : List Byte) (s : List Bool) : pack (unpack B ++ s) = B ++ pack s := by
  apply unpack_inj
  rw [unpack_append, unpack_pack, unpack_pack, List.append_assoc]
  congr 3
  simp only [List.length_append, unpack_length]
  omega

theorem littleEndian_pack (s : List Bool) : littleEndian (pack s) = bitsToNat s := by
  apply Nat.eq_of_testBit_eq
  intro k
  rw [← streamBit_eq_testBit, streamBit_pack, testBit_bitsToNat]

end Sys2Proof.Machine
end

