-- ==== Sys2Proof/Laws/BitReader.lean ====
section
/-! SUPPORT. Everything a read does (R133, R134, R52). -/

namespace Sys2Proof.Machine

/-! ### BitReader (R132, R133) -/

theorem codeAt_eq (B : List Byte) (o n : Nat) : codeAt B o n = littleEndian B / 2 ^ o % 2 ^ n := bitsToNat_stream B o n

theorem codeAt_lt (B : List Byte) (o n : Nat) : codeAt B o n < 2 ^ n := by
  rw [codeAt_eq]; exact Nat.mod_lt _ (Nat.two_pow_pos n)

/-- Reading `n + m` bits is reading `n` and then `m` (R52). -/
theorem codeAt_add (B : List Byte) (o n m : Nat) :
    codeAt B o (n + m) = codeAt B o n + 2 ^ n * codeAt B (o + n) m := by
  simp only [codeAt_eq]
  rw [pow_add, Nat.mod_mul, pow_add, Nat.div_div_eq_div_mul]

/-- A read within the slice (R133). -/
theorem BitReader.read_ok {r : BitReader} {n : Nat} (h : r.cur + n ≤ 8 * r.src.length) :
    r.read n = .ok (codeAt r.src r.cur n, { r with cur := r.cur + n }) := by
  have : ¬ r.remaining < n := by unfold BitReader.remaining; omega
  rw [BitReader.read, if_neg this]
  rfl

/-- A read past the end of the slice (R133, R233). -/
theorem BitReader.read_error {r : BitReader} {n : Nat} (h : 8 * r.src.length < r.cur + n) :
    r.read n = .error (.unexpectedEndOfData r.cur n r.src.length) := by
  have : r.remaining < n := by unfold BitReader.remaining; omega
  rw [BitReader.read, if_pos this]

/-- Everything a read can do (R133). -/
theorem BitReader.read_cases (r : BitReader) (n : Nat) :
    (r.cur + n ≤ 8 * r.src.length ∧ r.read n = .ok (codeAt r.src r.cur n, { r with cur := r.cur + n })) ∨
    (8 * r.src.length < r.cur + n ∧ r.read n = .error (.unexpectedEndOfData r.cur n r.src.length)) := by
  rcases Nat.lt_or_ge (8 * r.src.length) (r.cur + n) with h | h
  · exact .inr ⟨h, BitReader.read_error h⟩
  · exact .inl ⟨h, BitReader.read_ok h⟩

end Sys2Proof.Machine
end

