-- ==== Sys2Proof/Laws/BitWriter.lean ====
section
/-! SUPPORT. Byte spaces (R14) and everything the BitWriter operations do to the written stream (R22, R111 to R116). -/

namespace Sys2Proof.Machine

/-! ### Byte spaces (R14) -/

@[simp] theorem memWrite_end (S v : List Byte) : memWrite S S.length v = S ++ v := by simp [memWrite]

theorem memRead_length {S : List Byte} {a n : Nat} (h : a + n ≤ S.length) : (memRead S a n).length = n := by
  simp [memRead]; omega

/-! ### BitWriter (R111 to R113) -/

theorem BitWriter.reset_inv : BitWriter.reset.Inv := ⟨by decide, by decide, by decide⟩

@[simp] theorem BitWriter.reset_stream : BitWriter.reset.stream = [] := rfl

/-- `T` is the length of the written stream (R22, R112). -/
theorem BitWriter.stream_length (w : BitWriter) : w.stream.length = w.written := by
  simp [BitWriter.stream, BitWriter.written]

theorem BitWriter.putBit_closed (w : BitWriter) (b : Bool) : (w.putBit b).closed = w.closed := by
  unfold BitWriter.putBit; simp only; split <;> rfl

/-- One bit goes to the end of the written stream (R22, R112). -/
theorem BitWriter.putBit_spec {w : BitWriter} (hw : w.Inv) (ho : w.closed = false) (b : Bool) :
    (w.putBit b).Inv ∧ (w.putBit b).stream = w.stream ++ [b] := by
  obtain ⟨buf, acc, cnt, closed⟩ := w
  obtain ⟨hc, ha, _⟩ := hw
  simp only at hc ha ho
  subst ho
  have hb : b.toNat ≤ 1 := Bool.toNat_le b
  have hp : b.toNat * 2 ^ cnt ≤ 2 ^ cnt := by nlinarith [Nat.two_pow_pos cnt]
  have h128 : 2 ^ cnt ≤ 2 ^ 7 := Nat.pow_le_pow_right (by omega) (by omega)
  have hacc : (acc + BitVec.ofNat 8 (b.toNat * 2 ^ cnt)).toNat = 2 ^ cnt * b.toNat + acc.toNat := by
    rw [BitVec.toNat_add, BitVec.toNat_ofNat, Nat.add_mod_mod, Nat.mod_eq_of_lt (by omega)]; ring
  have hbits : (List.range (cnt + 1)).map (acc + BitVec.ofNat 8 (b.toNat * 2 ^ cnt)).getLsbD
      = (List.range cnt).map acc.getLsbD ++ [b] := by
    rw [List.range_succ, List.map_append]
    refine congrArg₂ (· ++ ·) ?_ ?_
    · apply List.map_congr_left
      intro i hi
      rw [List.mem_range] at hi
      simp only [BitVec.getLsbD, hacc, Nat.testBit_two_pow_mul_add _ ha, hi, if_true]
    · have : b.toNat.testBit 0 = b := by cases b <;> rfl
      simp [BitVec.getLsbD, hacc, Nat.testBit_two_pow_mul_add _ ha, this]
  unfold BitWriter.putBit
  simp only
  split
  · rename_i h8
    refine ⟨⟨by simp, by simp, by simp⟩, ?_⟩
    have : cnt = 7 := by omega
    subst this
    simp only [BitWriter.stream, memWrite_end, unpack_append, List.range_zero, List.map_nil, List.append_nil]
    rw [List.append_assoc, ← hbits, unpack_cons]
    rfl
  · refine ⟨⟨by simp only; omega, ?_, by simp⟩, ?_⟩
    · simp only; rw [hacc, pow_succ]; nlinarith
    · simp only [BitWriter.stream, List.append_assoc]
      rw [← hbits]

theorem BitWriter.putBits_closed (bs : List Bool) (w : BitWriter) : (BitWriter.putBits bs w).closed = w.closed := by
  induction bs generalizing w with
  | nil => rfl
  | cons b bs ih => rw [BitWriter.putBits, ih, BitWriter.putBit_closed]

/-- The bits go to the end of the written stream, in order (R22, R112). -/
theorem BitWriter.putBits_spec {w : BitWriter} (hw : w.Inv) (ho : w.closed = false) (bs : List Bool) :
    (BitWriter.putBits bs w).Inv ∧ (BitWriter.putBits bs w).stream = w.stream ++ bs := by
  induction bs generalizing w with
  | nil => simp [BitWriter.putBits, hw]
  | cons b bs ih =>
    obtain ⟨h1, h2⟩ := BitWriter.putBit_spec hw ho b
    obtain ⟨h3, h4⟩ := ih h1 (by rw [BitWriter.putBit_closed, ho])
    exact ⟨h3, by rw [BitWriter.putBits, h4, h2, List.append_assoc]; rfl⟩

theorem BitWriter.putBits_append (a b : List Bool) (w : BitWriter) :
    BitWriter.putBits (a ++ b) w = BitWriter.putBits b (BitWriter.putBits a w) := by
  induction a generalizing w with
  | nil => rfl
  | cons x a ih => exact ih _

/-- No completed byte is ever changed (R50: append only). -/
theorem BitWriter.putBits_buf_prefix (bs : List Bool) (w : BitWriter) : w.buf <+: (BitWriter.putBits bs w).buf := by
  induction bs generalizing w with
  | nil => exact List.prefix_rfl
  | cons b bs ih =>
    refine List.IsPrefix.trans ?_ (ih _)
    unfold BitWriter.putBit; simp only; split
    · simp
    · exact List.prefix_rfl

/-- An open writer with room takes the low `n` bits (R112). -/
theorem BitWriter.write_ok {cfg : Config} {w : BitWriter} (v : Int) (n : Nat) (ho : w.closed = false)
    (hcap : overCapacity cfg.bwCap (w.written + n) = false) :
    w.write cfg v n = .ok (BitWriter.putBits (valueBits v n) w) := by
  simp [BitWriter.write, ho, hcap]

theorem BitWriter.write_closed {cfg : Config} {w : BitWriter} (v : Int) (n : Nat) (hc : w.closed = true) :
    w.write cfg v n = .error .writerClosed := by
  simp [BitWriter.write, hc]

theorem overCapacity_mono {cap : Option Nat} {a b : Nat} (h : a ≤ b) (hb : overCapacity cap b = false) :
    overCapacity cap a = false := by
  cases cap with
  | none => rfl
  | some c => simp only [overCapacity, decide_eq_false_iff_not] at *; omega

/-- A flush returns the packed stream and closes the writer (R113). -/
theorem BitWriter.flush_ok {w : BitWriter} (hw : w.Inv) (ho : w.closed = false) :
    w.flush = .ok { buf := pack w.stream, acc := 0, cnt := 0, closed := true } := by
  obtain ⟨buf, acc, cnt, closed⟩ := w
  obtain ⟨hc, ha, _⟩ := hw
  simp only at hc ha ho
  subst ho
  rw [BitWriter.flush]
  simp only [BitWriter.stream, pack_unpack_append, memWrite_end]
  by_cases h0 : 0 < cnt
  · have hbyte : pack ((List.range cnt).map fun i => acc.getLsbD i) = [acc] := by
      apply List.ext_getElem
      · simp; omega
      · intro j h1 h2
        have hj : j = 0 := by simpa using h2
        subst hj
        have e : bitsToNat ((List.range cnt).map fun i => acc.getLsbD i) = acc.toNat := by
          have : (fun i => acc.getLsbD i) = acc.toNat.testBit := rfl
          rw [this, bitsToNat_map_testBit, Nat.mod_eq_of_lt ha]
        have hl : ((List.range cnt).map fun i => acc.getLsbD i).length ≤ 8 := by simp; omega
        simp [pack, List.take_of_length_le hl, e]
    simp [h0, hbyte]
  · have hz : cnt = 0 := by omega
    subst hz
    have : acc = 0 := by apply BitVec.eq_of_toNat_eq; simpa using ha
    simp [this, pack]

theorem BitWriter.flush_closed {w : BitWriter} (hc : w.closed = true) : w.flush = .error .writerClosed := by
  simp [BitWriter.flush, hc]

@[simp] theorem writtenBits_nil : writtenBits [] = [] := rfl

theorem writtenBits_cons (p : Int × Nat) (ws : List (Int × Nat)) :
    writtenBits (p :: ws) = valueBits p.1 p.2 ++ writtenBits ws := by simp [writtenBits]

theorem writtenBits_append (a b : List (Int × Nat)) : writtenBits (a ++ b) = writtenBits a ++ writtenBits b := by
  simp [writtenBits]

@[simp] theorem writtenBits_length (ws : List (Int × Nat)) : (writtenBits ws).length = writtenLength ws := by
  induction ws with
  | nil => rfl
  | cons p ws ih => simp [writtenBits_cons, ih, writtenLength]

/-- The number of the bits of a sequence of writes (R114). -/
theorem bitsToNat_writtenBits (ws : List (Int × Nat)) (o : Nat) :
    2 ^ o * bitsToNat (writtenBits ws) = writtenSum ws o := by
  induction ws generalizing o with
  | nil => simp [writtenSum]
  | cons p ws ih =>
    rw [writtenBits_cons, bitsToNat_append, bitsToNat_valueBits, valueBits_length, writtenSum, ← ih, pow_add]
    ring

/-- A sequence of writes that fits is one run of bits (R114). -/
theorem BitWriter.writeAll_ok {cfg : Config} (ws : List (Int × Nat)) {w : BitWriter} (hw : w.Inv)
    (ho : w.closed = false) (hcap : overCapacity cfg.bwCap (w.written + writtenLength ws) = false) :
    BitWriter.writeAll cfg ws w = .ok (BitWriter.putBits (writtenBits ws) w) := by
  induction ws generalizing w with
  | nil => rfl
  | cons p ws ih =>
    obtain ⟨v, n⟩ := p
    have hl : writtenLength ((v, n) :: ws) = n + writtenLength ws := by simp [writtenLength]
    rw [hl] at hcap
    rw [BitWriter.writeAll, BitWriter.write_ok v n ho (overCapacity_mono (by omega) hcap)]
    obtain ⟨h1, h2⟩ := BitWriter.putBits_spec hw ho (valueBits v n)
    have ht : (BitWriter.putBits (valueBits v n) w).written = w.written + n := by
      rw [← BitWriter.stream_length, h2]; simp [BitWriter.stream_length]
    simp only
    rw [ih h1 (by rw [BitWriter.putBits_closed, ho]) (by rw [ht, Nat.add_assoc]; exact hcap), writtenBits_cons,
      BitWriter.putBits_append]

/-- The registers after bits are put: whole bytes in `buf`, the rest counted (R22, R112). -/
theorem BitWriter.putBits_shape {w : BitWriter} (hw : w.Inv) (ho : w.closed = false) (bs : List Bool) :
    (BitWriter.putBits bs w).buf.length = (w.written + bs.length) / 8 ∧
    (BitWriter.putBits bs w).cnt = (w.written + bs.length) % 8 := by
  obtain ⟨h1, h2⟩ := BitWriter.putBits_spec hw ho bs
  have := congrArg List.length h2
  rw [List.length_append, BitWriter.stream_length, BitWriter.stream_length] at this
  have h3 := h1.cnt_lt
  simp only [BitWriter.written] at this ⊢
  omega

/-- What a write that does not fail does, whatever the capacity (R112). -/
theorem BitWriter.write_eq {cfg : Config} {w w' : BitWriter} {v : Int} {n : Nat} (h : w.write cfg v n = .ok w') :
    w' = BitWriter.putBits (valueBits v n) w := by
  rw [BitWriter.write] at h
  split_ifs at h
  cases h; rfl

/-- What a sequence of writes that does not fail does, whatever the capacity (R153). -/
theorem BitWriter.writeAll_eq {cfg : Config} (ws : List (Int × Nat)) {w w' : BitWriter}
    (h : BitWriter.writeAll cfg ws w = .ok w') : w' = BitWriter.putBits (writtenBits ws) w := by
  induction ws generalizing w with
  | nil => cases h; rfl
  | cons p ws ih =>
    obtain ⟨v, n⟩ := p
    rw [BitWriter.writeAll] at h
    split at h
    · rename_i w1 h1
      rw [ih h, BitWriter.write_eq h1, writtenBits_cons, BitWriter.putBits_append]
    · cases h

end Sys2Proof.Machine
end

