-- ==== Sys2Proof/Laws/Codes.lean ====
section
/-! SUPPORT. Sector codes for every admissible digit map (R88 to R90), trimming (R34), field codes (R84, R85). -/

namespace Sys2Proof

/-- The open digit map of the instance is admissible (R88). -/
theorem sectDigitOf_admissible (p : Equiv.Perm (Fin 13)) : (sectDigitOf p).Admissible := by
  constructor
  · intro d e h
    have hf : ∀ a b : Fin 13, freeSectCode a = freeSectCode b → a = b := by decide
    have := p.injective (hf _ _ h)
    simpa [Fin.ext_iff] using this
  · intro d
    have : ∀ a : Fin 13, (1 ≤ freeSectCode a ∧ freeSectCode a ≤ 8) ∨ (11 ≤ freeSectCode a ∧ freeSectCode a ≤ 15) := by
      decide
    exact this _

/-- No admissible digit map is left out (R88): each is the map of some arrangement of the thirteen codes. -/
theorem exists_sectDigitOf {sd : SectDigit} (h : sd.Admissible) : ∃ p, sectDigitOf p = sd := by
  have hs : ∀ n, (1 ≤ n ∧ n ≤ 8) ∨ (11 ≤ n ∧ n ≤ 15) → ∃ a : Fin 13, freeSectCode a = n := by
    intro n hn
    rcases hn with hn | hn
    · exact ⟨⟨n - 1, by omega⟩, by simp only [freeSectCode]; split <;> omega⟩
    · exact ⟨⟨n - 3, by omega⟩, by simp only [freeSectCode]; split <;> omega⟩
  choose g hg using fun d => hs (sd d) (h.2 d)
  have hinj : Function.Injective g := by
    intro d e hde
    apply h.1
    rw [← hg d, ← hg e, hde]
  let c : Fin 10 → Fin 13 := fun d => d.castLE (by decide)
  have hc : Function.Injective c := Fin.castLE_injective _
  let e := (Equiv.ofInjective c hc).symm.trans (Equiv.ofInjective g hinj)
  refine ⟨e.extendSubtype, ?_⟩
  funext d
  have hm : c d ∈ Set.range c := ⟨d, rfl⟩
  have : e.extendSubtype (c d) = g d := by
    rw [Equiv.extendSubtype_apply_of_mem e _ hm]
    have h1 : (Equiv.ofInjective c hc).symm ⟨c d, hm⟩ = d := by
      rw [Equiv.symm_apply_eq]; rfl
    simp only [e, Equiv.trans_apply, h1]; rfl
  show freeSectCode (e.extendSubtype (c d)) = sd d
  rw [this, hg]

theorem Config.hw_admissible : Config.hw.sectDigit.Admissible := sectDigitOf_admissible _

theorem sectDigitRef_admissible : sectDigitRef.Admissible := ⟨by decide, by decide⟩

end Sys2Proof

namespace Sys2Proof.Machine

/-! ### Sector codes -/

theorem digitOf_eq_some {ch : Byte} {d : Fin 10} (h : digitOf ch = some d) :
    digitChar d = ch ∧ (0x30 ≤ ch.toNat ∧ ch.toNat ≤ 0x39) := by
  unfold digitOf at h
  split at h
  · rename_i hr
    cases h
    refine ⟨?_, hr⟩
    apply BitVec.eq_of_toNat_eq
    simp [digitChar]; omega
  · cases h

theorem digitOf_digitChar (d : Fin 10) : digitOf (digitChar d) = some d := by revert d; decide

theorem digitOf_eq_none {ch : Byte} (h : digitOf ch = none) : ¬(0x30 ≤ ch.toNat ∧ ch.toNat ≤ 0x39) := by
  unfold digitOf at h
  split at h
  · cases h
  · assumption

theorem sectCode_lt {sd : SectDigit} (h : sd.Admissible) (ch : Byte) : sectCode sd ch < 16 := by
  unfold sectCode
  split_ifs
  · decide
  · decide
  · decide
  · split
    · rename_i d _; have := h.2 d; omega
    · decide

theorem sectChar_digit {sd : SectDigit} (h : sd.Admissible) (d : Fin 10) : sectChar sd (sd d) = some (digitChar d) := by
  have h2 := h.2 d
  have hf : (List.finRange 10).find? (fun e => sd e == sd d) = some d := by
    cases hh : (List.finRange 10).find? (fun e => sd e == sd d) with
    | none =>
      rw [List.find?_eq_none] at hh
      exact absurd (hh d (List.mem_finRange d)) (by simp)
    | some e =>
      have := List.find?_some hh
      rw [h.1 e d (by simpa using this)]
  rw [sectChar, if_neg (by omega), if_neg (by omega), if_neg (by omega), hf]
  rfl

/-- What a sector character comes back as (R89, R90): itself in the alphabet, a space outside it. -/
theorem sectChar_sectCode {sd : SectDigit} (h : sd.Admissible) (ch : Byte) :
    sectChar sd (sectCode sd ch) = some (if inAlphabet ch then ch else space) := by
  unfold sectCode
  by_cases h1 : ch = space
  · subst h1; rfl
  by_cases h2 : ch = 0x2F
  · subst h2; rfl
  by_cases h3 : ch = 0x2D
  · subst h3; rfl
  rw [if_neg h1, if_neg h2, if_neg h3]
  cases hd : digitOf ch with
  | some d =>
    obtain ⟨e1, e2⟩ := digitOf_eq_some hd
    simp [sectChar_digit h, inAlphabet, e1, e2]
  | none =>
    have e2 := digitOf_eq_none hd
    have : inAlphabet ch = false := by
      simp only [inAlphabet, Bool.or_eq_false_iff, beq_eq_false_iff_ne]
      refine ⟨⟨⟨h1, h2⟩, h3⟩, ?_⟩
      simpa using e2
    simp [this, sectChar]

/-- Some code has no character, whatever the digit map (R90). -/
theorem exists_sectChar_none {sd : SectDigit} (h : sd.Admissible) : ∃ c : Fin 16, sectChar sd c = none := by
  obtain ⟨p, rfl⟩ := exists_sectDigitOf h
  have hr : ∀ a : Fin 13, (1 ≤ freeSectCode a ∧ freeSectCode a ≤ 8) ∨ (11 ≤ freeSectCode a ∧ freeSectCode a ≤ 15) := by
    decide
  have hi : ∀ a b : Fin 13, freeSectCode a = freeSectCode b → a = b := by decide
  have hc := hr (p 10)
  refine ⟨⟨freeSectCode (p 10), by omega⟩, ?_⟩
  have hf : (List.finRange 10).find? (fun d => sectDigitOf p d == freeSectCode (p 10)) = none := by
    rw [List.find?_eq_none]
    intro d _ hd
    have := p.injective (hi _ _ (by simpa [sectDigitOf] using hd))
    have hv := congrArg Fin.val this
    have : (d.castLE (by decide) : Fin 13).val = d.val := rfl
    have h10 : (10 : Fin 13).val = 10 := rfl
    omega
  rw [sectChar, if_neg (by simp only; omega), if_neg (by simp only; omega), if_neg (by simp only; omega), hf]
  rfl

/-- The two length bounds of the operand of `ENC.ENCODE` (R151). -/
theorem Observation.wf_iff (x : Observation) : x.wf = true ↔ x.sectors.length ≤ 15 ∧ x.remark.length ≤ 60 := by
  unfold Observation.wf; rw [Bool.and_eq_true, decide_eq_true_eq, decide_eq_true_eq]; rfl

/-! ### Trailing spaces (R34, R190) -/

theorem rtrim_append_spaces (s : List Byte) (n : Nat) : rtrim (s ++ List.replicate n space) = rtrim s := by
  induction n with
  | zero => simp
  | succ n ih =>
    rw [List.replicate_succ', ← List.append_assoc, rtrim, List.rdropWhile_concat_pos _ _ _ (by simp)]
    exact ih

theorem rtrim_prefix (s : List Byte) : rtrim s <+: s := List.rdropWhile_prefix _ _

theorem rtrim_length_le (s : List Byte) : (rtrim s).length ≤ s.length := (rtrim_prefix s).length_le

theorem rtrim_getLast? (s : List Byte) : (rtrim s).getLast? ≠ some space := by
  intro h
  have hne : rtrim s ≠ [] := by intro h0; rw [h0] at h; cases h
  have := List.rdropWhile_last_not (· == space) s hne
  rw [List.getLast?_eq_some_getLast hne] at h
  simp only [Option.some.injEq] at h
  exact this (by simpa [rtrim] using h)

/-- A string is its trimmed part and spaces (R34). -/
theorem rtrim_spaces (s : List Byte) : ∃ k, s = rtrim s ++ List.replicate k 0x20 := by
  refine ⟨(s.rtakeWhile (· == space)).length, ?_⟩
  have h : ∀ b ∈ s.rtakeWhile (· == space), b = 0x20 := by
    intro b hb
    simpa [space] using List.mem_rtakeWhile_imp hb
  rw [← List.eq_replicate_of_mem h]
  simp only [rtrim, List.rdropWhile, List.rtakeWhile]
  have := List.takeWhile_append_dropWhile (p := (· == space)) (l := s.reverse)
  have := congrArg List.reverse this
  rw [List.reverse_append, List.reverse_reverse] at this
  exact this.symm

theorem rtrim_of_getLast? {s : List Byte} (h : s.getLast? ≠ some space) : rtrim s = s := by
  rw [rtrim, List.rdropWhile_eq_self_iff]
  intro hne hs
  apply h
  rw [List.getLast?_eq_some_getLast hne]
  simpa using hs

/-! ### Field codes (R84, R85) -/

theorem encCode_lt (f : FieldId) (v : Int) : encCode f v < 2 ^ f.width := by
  unfold encCode
  split_ifs with h1 h2
  · rw [h1.1]; decide
  · have := Nat.two_pow_pos f.width; omega
  · exact lowBits_lt _ _

theorem lowBits_encCode (f : FieldId) (v : Int) : lowBits f.width (encCode f v : Int) = encCode f v := by
  have := lowBits_of_range (n := f.width) (v := (encCode f v : Int)) (by omega) (by exact_mod_cast encCode_lt f v)
  exact_mod_cast this

/-- The substitution of `-1` agrees with truncation (R84): a field other than `dorg` carries its low bits. -/
theorem encCode_eq_lowBits {f : FieldId} (h : f ≠ .dorg) (v : Int) : encCode f v = lowBits f.width v := by
  unfold encCode
  rw [if_neg (by simp [h])]
  split_ifs with h2
  · rw [h2.2]
    have : (lowBits f.width (-1) : Int) = ((2 ^ f.width : Nat) : Int) - 1 := by
      rw [lowBits_cast, ← Int.add_emod_right, Int.emod_eq_of_lt] <;>
        (have := Nat.two_pow_pos f.width; omega)
    have := Nat.two_pow_pos f.width
    omega
  · rfl

/-- R85's law: on the faithful range a value comes back. -/
theorem decValue_encCode {f : FieldId} {v : Int} (hf : f.faithful v = true) (hk : f ≠ .kk) :
    decValue f (encCode f v) = v := by
  cases f
  case kk => exact absurd rfl hk
  case dorg =>
    simp only [FieldId.faithful, List.contains_iff_mem, List.mem_cons, List.not_mem_nil, or_false] at hf
    rcases hf with h | h | h | h | h | h | h | h <;> subst h <;> decide
  all_goals
    rw [encCode_eq_lowBits (by decide)]
    simp only [FieldId.faithful, FieldId.sentinel, FieldId.width, Bool.and_eq_true, decide_eq_true_eq, if_true,
      Bool.false_eq_true, if_false] at hf
    rw [lowBits_cast]
    simp only [decValue, FieldId.sentinel, FieldId.width, reduceCtorEq, false_and, if_false, true_and,
      Bool.false_eq_true]
    norm_num at hf ⊢
    try split_ifs
    all_goals omega

end Sys2Proof.Machine
end

