-- ==== Sys2Proof/Laws/Decode.lean ====
section
/-! SUPPORT. The fields of a command word (R98) and the words that name an operation (R100). -/

namespace Sys2Proof

/-- The three fields come out of a word as they went in (R98). -/
theorem commandWord_fields {op n v : Nat} (h1 : op < 16) (h2 : n < 16) (h3 : v < 256) :
    (commandWord op n v).op = op ∧ (commandWord op n v).count = n ∧ (commandWord op n v).value = v := by
  simp only [CommandWord.op, CommandWord.count, CommandWord.value, commandWord, BitVec.toNat_ofNat]
  omega

/-- A word is its three fields (R98). -/
theorem commandWord_eta (w : CommandWord) : commandWord w.op w.count w.value = w := by
  apply BitVec.eq_of_toNat_eq
  have := w.isLt
  simp only [commandWord, CommandWord.op, CommandWord.count, CommandWord.value, BitVec.toNat_ofNat]; omega

theorem CommandWord.op_lt (w : CommandWord) : w.op < 16 := by
  have := w.isLt; simp only [CommandWord.op]; omega

/-- The legal words, by their fields: what R100 does not reserve. -/
theorem legalWord_iff (w : CommandWord) : legalWord w = true ↔
    ¬ (w.op = 0 ∨ 10 ≤ w.op ∨ ((w.op = 2 ∨ w.op = 5) ∧ 8 < w.count) ∨ ((w.op ≠ 2 ∧ w.op ≠ 5) ∧ w.count ≠ 0) ∨
      (w.op ≠ 2 ∧ w.value ≠ 0)) := by
  have hmax : Config.hw.wmax = 8 := rfl
  have hop := w.op_lt
  unfold legalWord zeroOperands
  rw [hmax]
  generalize w.op = op at *
  generalize w.count = n
  generalize w.value = v
  interval_cases op <;> simp

end Sys2Proof
end

