-- ==== Sys2Proof/Laws/Decoder.lean ====
section
/-! SUPPORT. The decoder by stream position (R72, R183): its three phases and the conditions of each. -/

namespace Sys2Proof.Machine

/-! ### The fixed region (R183, phase 1) -/

/-- Reading `k` codes within the slice (R183). -/
theorem BitReader.readCodes_ok (w k : Nat) {r : BitReader} (h : r.cur + w * k ≤ 8 * r.src.length) :
    BitReader.readCodes w k r =
      .ok ((List.range k).map (fun i => codeAt r.src (r.cur + w * i) w), { r with cur := r.cur + w * k }) := by
  induction k generalizing r with
  | zero => simp [BitReader.readCodes]
  | succ k ih =>
    have h1 : r.cur + w ≤ 8 * r.src.length := by nlinarith
    have h2 : (r.cur + w) + w * k ≤ 8 * r.src.length := by nlinarith
    rw [BitReader.readCodes, BitReader.read_ok h1]
    simp only
    rw [ih (r := { r with cur := r.cur + w }) h2]
    have hf : (fun i => codeAt r.src (r.cur + w + w * i) w) = (fun i => codeAt r.src (r.cur + w * i) w) ∘ Nat.succ := by
      funext i; simp only [Function.comp, Nat.succ_eq_add_one]; congr 1; ring
    have hc : r.cur + w + w * k = r.cur + w * (k + 1) := by ring
    simp [List.range_succ_eq_map, hf, hc]

/-- The codes of the numeric fields of a record by their positions (R72). -/
def codesByPosition (escape : Bool) (B : List Byte) : Observation :=
  Observation.mapFields (fun f _ => (fieldCode escape B f : Int)) {}

/-- The sector codes of a record by their positions (R72). -/
def sectorsByPosition (escape : Bool) (B : List Byte) : List Nat := (List.range 15).map (sectorCode escape B)

/-- The observer slot is the low seven bits of byte 1 (R75, R184). -/
theorem observerSlot_eq (B : List Byte) : codeAt B 8 7 = (byteAt B 1).toNat % 128 := by
  have h : (List.range 7).map (fun i => streamBit B (8 + i)) = (List.range 7).map (byteAt B 1).toNat.testBit := by
    apply List.map_congr_left
    intro i hi
    rw [List.mem_range] at hi
    have h1 : (8 + i) / 8 = 1 := by omega
    have h2 : (8 + i) % 8 = i := by omega
    simp only [streamBit, h1, h2, BitVec.getLsbD]
  rw [codeAt, h, bitsToNat_map_testBit]; rfl

theorem fixedNormal_eq : fixedNormal = 22 := by decide
theorem fixedEscape_eq : fixedEscape = 23 := by decide

theorem escapeRecord_iff (B : List Byte) : escapeRecord B = true ↔ codeAt B 8 7 = 0 := by
  rw [observerSlot_eq]; simp [escapeRecord]

set_option maxRecDepth 4000 in
/-- Phase 1 on a record of format N with its fixed region present (R183, R185). -/
theorem readFixedRegion_normal {B : List Byte} (hl : 22 ≤ B.length) (he : escapeRecord B = false) :
    readFixedRegion (.load B) = .ok (codesByPosition false B, sectorsByPosition false B, { src := B, cur := 175 }) := by
  have hk : ¬ codeAt B 8 7 = 0 := by rw [← escapeRecord_iff]; simp [he]
  have hk' : ¬ ((codeAt B 8 7 : Nat) : Int) = 0 := by exact_mod_cast hk
  have hr : ∀ c n, c + n ≤ 176 → BitReader.read n { src := B, cur := c } = .ok (codeAt B c n, { src := B, cur := c + n }) :=
    fun c n h => BitReader.read_ok (r := { src := B, cur := c }) (by simp only; omega)
  have hs := BitReader.readCodes_ok 4 15 (r := { src := B, cur := 115 }) (by simp only; omega)
  simp only [readFixedRegion, BitReader.load, BitReader.readFields, FieldId.width, hr, Nat.reduceAdd, Nat.reduceLeDiff,
    laterFields, Observation.set, hk', if_false, sectLen, sectWidth, hs, Nat.reduceMul]
  rfl

set_option maxRecDepth 4000 in
/-- Phase 1 on a record of format E with its fixed region present (R183, R185). -/
theorem readFixedRegion_escape {B : List Byte} (hl : 23 ≤ B.length) (he : escapeRecord B = true) :
    readFixedRegion (.load B) = .ok (codesByPosition true B, sectorsByPosition true B, { src := B, cur := 183 }) := by
  have hk : codeAt B 8 7 = 0 := by rw [← escapeRecord_iff]; exact he
  have hr : ∀ c n, c + n ≤ 184 → BitReader.read n { src := B, cur := c } = .ok (codeAt B c n, { src := B, cur := c + n }) :=
    fun c n h => BitReader.read_ok (r := { src := B, cur := c }) (by simp only; omega)
  have hs := BitReader.readCodes_ok 4 15 (r := { src := B, cur := 123 }) (by simp only; omega)
  simp only [readFixedRegion, BitReader.load, BitReader.readFields, FieldId.width, hr, Nat.reduceAdd, Nat.reduceLeDiff,
    laterFields, Observation.set, hk, Nat.cast_zero, if_true, escapeWidth, sectLen, sectWidth, hs, Nat.reduceMul]
  rfl

set_option maxRecDepth 4000 in
/-- The only underrun of the decoder: a format E record of exactly 22 bytes, at the read of `sect[13]` (R137). -/
theorem readFixedRegion_underrun {B : List Byte} (hl : B.length = 22) (he : escapeRecord B = true) :
    readFixedRegion (.load B) = .error (.unexpectedEndOfData 175 4 22) := by
  have hk : codeAt B 8 7 = 0 := by rw [← escapeRecord_iff]; exact he
  have hr : ∀ c n, c + n ≤ 176 → BitReader.read n { src := B, cur := c } = .ok (codeAt B c n, { src := B, cur := c + n }) :=
    fun c n h => BitReader.read_ok (r := { src := B, cur := c }) (by simp only; omega)
  have hu : BitReader.read 4 { src := B, cur := 175 } = .error (.unexpectedEndOfData 175 4 22) := by
    rw [BitReader.read_error (r := { src := B, cur := 175 }) (by simp only; omega)]; simp [hl]
  simp only [readFixedRegion, BitReader.load, BitReader.readFields, FieldId.width, hr, Nat.reduceAdd, Nat.reduceLeDiff,
    laterFields, Observation.set, hk, Nat.cast_zero, if_true, escapeWidth, sectLen, sectWidth, BitReader.readCodes, hu]

/-- What the decoder answers once the codes are read: phases 2 and 3 of R183 by stream position. -/
def decodeByPosition (sd : SectDigit) (escape : Bool) (B : List Byte) : Except Condition (Observation × Nat) :=
  match sectChars sd 0 (sectorsByPosition escape B) with
  | .error e => .error e
  | .ok chars =>
    match frameRemark B with
    | .error e => .error e
    | .ok (remark, consumed) =>
      .ok (normalise ((codesByPosition escape B).mapFields decValue) chars remark, consumed)

/-- Everything the decoder can do, by the length and the format of the buffer (R182, R183, R137). -/
theorem decodeRecord_eq (sd : SectDigit) (B : List Byte) :
    decodeRecord sd B =
      if B.length < 22 then .error (.truncatedRecord B.length)
      else if B.length = 22 ∧ escapeRecord B = true then .error (.unexpectedEndOfData 175 4 22)
      else decodeByPosition sd (escapeRecord B) B := by
  rw [decodeRecord, fixedNormal_eq]
  by_cases h : B.length < 22
  · rw [if_pos h, if_pos h]
  · rw [if_neg h, if_neg h]
    by_cases h2 : B.length = 22 ∧ escapeRecord B = true
    · rw [if_pos h2, readFixedRegion_underrun h2.1 h2.2]
    · rw [if_neg h2]
      cases he : escapeRecord B with
      | false => rw [readFixedRegion_normal (by omega) he]; rfl
      | true =>
        have : B.length ≠ 22 := fun h22 => h2 ⟨h22, he⟩
        rw [readFixedRegion_escape (by omega) he]; rfl

/-- The remark framing (R186), tests in order. -/
theorem frameRemark_cases (B : List Byte) :
    (B.length < fixedSize B + 1 ∧ frameRemark B = .error (.malformedRemark (fixedSize B) none B.length)) ∨
    (fixedSize B + 1 ≤ B.length ∧
      (60 < (byteAt B (fixedSize B)).toNat ∨ B.length < fixedSize B + 1 + (byteAt B (fixedSize B)).toNat) ∧
      frameRemark B = .error (.malformedRemark (fixedSize B) (some (byteAt B (fixedSize B)).toNat) B.length)) ∨
    ((byteAt B (fixedSize B)).toNat ≤ 60 ∧ fixedSize B + 1 + (byteAt B (fixedSize B)).toNat ≤ B.length ∧
      frameRemark B = .ok (memRead B (fixedSize B + 1) (byteAt B (fixedSize B)).toNat,
        fixedSize B + 1 + (byteAt B (fixedSize B)).toNat)) := by
  generalize hf : frameRemark B = out
  simp only [frameRemark, remarkMax, gt_iff_lt] at hf
  split_ifs at hf with h1 h2 h3
  · exact .inl ⟨h1, hf.symm⟩
  · exact .inr (.inl ⟨by omega, .inl h2, hf.symm⟩)
  · exact .inr (.inl ⟨by omega, .inr h3, hf.symm⟩)
  · exact .inr (.inr ⟨by omega, by omega, hf.symm⟩)

/-! ### Sector codes (R88 to R90, R188) -/

theorem sectChars_ok {sd : SectDigit} {i : Nat} {cs : List Nat} {chs : List Byte} (h : sectChars sd i cs = .ok chs) :
    chs.length = cs.length := by
  induction cs generalizing i chs with
  | nil => simp [sectChars] at h; simp [← h]
  | cons c cs ih =>
    rw [sectChars] at h
    split at h
    · cases h
    · split at h
      · cases h
      · rename_i heq
        cases h
        simp [ih heq]

/-- The sector loop succeeds exactly when every code has a character. -/
theorem sectChars_eq_ok_iff {sd : SectDigit} {i : Nat} {cs : List Nat} {chs : List Byte} :
    sectChars sd i cs = .ok chs ↔ cs.map (sectChar sd) = chs.map some := by
  induction cs generalizing i chs with
  | nil => cases chs <;> simp [sectChars]
  | cons c cs ih =>
    rw [sectChars]
    cases hc : sectChar sd c with
    | none => cases chs <;> simp [hc]
    | some ch =>
      simp only
      cases hr : sectChars sd (i + 1) cs with
      | error e =>
        have : ∀ l : List Byte, cs.map (sectChar sd) ≠ l.map some := by
          intro l hl; rw [← ih (i := i + 1)] at hl; rw [hl] at hr; cases hr
        cases chs with
        | nil => simp
        | cons a l => simp [hc, this l]
      | ok l =>
        have h1 := ih.mp hr
        cases chs with
        | nil => simp
        | cons a l' =>
          simp only [Except.ok.injEq, List.cons.injEq, List.map_cons, hc, h1, Option.some.injEq]
          constructor
          · rintro ⟨rfl, rfl⟩; exact ⟨rfl, rfl⟩
          · rintro ⟨rfl, h⟩; exact ⟨rfl, (List.map_injective_iff.mpr (Option.some_injective _)) h⟩

/-- The sector loop fails exactly at the lowest index whose code has no character (R188). -/
theorem sectChars_eq_error {sd : SectDigit} {i : Nat} {cs : List Nat} {e : Condition}
    (h : sectChars sd i cs = .error e) :
    ∃ j, ∃ hj : j < cs.length, e = .malformedField (i + j) cs[j] ∧ sectChar sd cs[j] = none ∧
      ∀ k, ∀ hk : k < j, (sectChar sd (cs[k]'(by omega))).isSome := by
  induction cs generalizing i with
  | nil => cases h
  | cons c cs ih =>
    rw [sectChars] at h
    cases hc : sectChar sd c with
    | none =>
      rw [hc] at h
      cases h
      exact ⟨0, by simp, rfl, hc, fun k hk => absurd hk (by omega)⟩
    | some ch =>
      rw [hc] at h
      simp only at h
      split at h
      · rename_i e' he
        cases h
        obtain ⟨j, hj, h1, h2, h3⟩ := ih he
        refine ⟨j + 1, by simpa using hj, ?_, by simpa using h2, ?_⟩
        · rw [h1]; simp; omega
        · intro k hk
          cases k with
          | zero => simp [hc]
          | succ k => simpa using h3 k (by omega)
      · cases h

end Sys2Proof.Machine
end

