-- ==== Sys2Proof/Laws/Encoder.lean ====
section
/-! SUPPORT. The encoder by stream position (R72, R152, R153, R154). -/

namespace Sys2Proof.Machine

/-! ### Writes by stream position (R72, R153) -/

/-- The writes `ws` stand in `B` one after another from stream bit `o` on. -/
def WritesAt (B : List Byte) : List (Int × Nat) → Nat → Prop
  | [], _ => True
  | (v, n) :: ws, o => codeAt B o n = lowBits n v ∧ WritesAt B ws (o + n)

theorem writtenLength_cons (v : Int) (n : Nat) (ws : List (Int × Nat)) :
    writtenLength ((v, n) :: ws) = n + writtenLength ws := by simp [writtenLength]

theorem writtenLength_append (a b : List (Int × Nat)) : writtenLength (a ++ b) = writtenLength a + writtenLength b := by
  simp [writtenLength]

theorem writesAt_of_bits {B : List Byte} (ws : List (Int × Nat)) {o : Nat}
    (h : ∀ k, k < writtenLength ws → streamBit B (o + k) = (writtenBits ws).getD k false) : WritesAt B ws o := by
  induction ws generalizing o with
  | nil => trivial
  | cons p ws ih =>
    obtain ⟨v, n⟩ := p
    rw [writtenLength_cons, writtenBits_cons] at h
    constructor
    · rw [codeAt, ← bitsToNat_valueBits]
      congr 1
      apply List.ext_getElem
      · simp
      · intro i h1 h2
        have hi : i < n := by simpa using h1
        have := h i (by omega)
        rw [List.getElem_map, List.getElem_range, this]
        simp [List.getD_eq_getElem?_getD, List.getElem?_append, hi]
    · apply ih
      intro k hk
      have := h (n + k) (by omega)
      rw [← Nat.add_assoc] at this
      rw [this]
      simp [List.getD_eq_getElem?_getD, List.getElem?_append]

theorem writesAt_append {B : List Byte} (a b : List (Int × Nat)) (o : Nat) :
    WritesAt B (a ++ b) o ↔ WritesAt B a o ∧ WritesAt B b (o + writtenLength a) := by
  induction a generalizing o with
  | nil => simp [WritesAt, writtenLength]
  | cons p a ih =>
    obtain ⟨v, n⟩ := p
    simp only [List.cons_append, WritesAt, ih, writtenLength_cons, and_assoc, Nat.add_assoc]

theorem streamBit_append_left {A : List Byte} (T : List Byte) {k : Nat} (h : k < 8 * A.length) :
    streamBit (A ++ T) k = streamBit A k := by
  have : k / 8 < A.length := by omega
  simp [streamBit, byteAt, List.getD_eq_getElem?_getD, List.getElem?_append, this]

/-- A packed sequence of writes carries each write at its offset (R114, R153), whatever follows. -/
theorem writesAt_pack (ws : List (Int × Nat)) (T : List Byte) : WritesAt (pack (writtenBits ws) ++ T) ws 0 := by
  apply writesAt_of_bits
  intro k hk
  rw [Nat.zero_add, streamBit_append_left, streamBit_pack]
  simp; omega

/-! ### The encoder (R152) -/

theorem padSectors_length {s : List Byte} (h : s.length ≤ 15) : (padSectors s).length = 15 := by
  simp [padSectors, sectLen]; omega

/-- A record has 175 bits, 183 with the escape byte (R73). -/
theorem recordWrites_length (sd : SectDigit) {x : Observation} (h : x.sectors.length ≤ 15) :
    writtenLength (recordWrites sd x) = if x.kk > 99 then 183 else 175 := by
  have hs : writtenLength ((padSectors x.sectors).map fun ch => ((sectCode sd ch : Int), sectWidth)) = 60 := by
    have := padSectors_length h
    simp only [writtenLength, List.map_map]
    rw [List.eq_replicate_of_mem (l := List.map _ (padSectors x.sectors)) (a := 4)
      (by intro b hb; rw [List.mem_map] at hb; obtain ⟨_, _, rfl⟩ := hb; rfl)]
    simp [this]
  rw [recordWrites, writtenLength_append, hs, writtenLength_append, writtenLength_append]
  unfold observerWrites
  split_ifs <;> simp [writtenLength, laterFields, FieldId.width, escapeWidth]

/-- The record of an Observation (R152): the packed writes, the length byte, the remark. -/
def recordOf (sd : SectDigit) (x : Observation) : List Byte :=
  pack (writtenBits (recordWrites sd x)) ++ [BitVec.ofNat 8 x.remark.length] ++ x.remark

/-- The encoder raises nothing when the writer has the 23 bytes of R116 (R152). -/
theorem encodeRecord_ok {cfg : Config} (hcap : overCapacity cfg.bwCap 183 = false) {x : Observation}
    (h : x.sectors.length ≤ 15) : encodeRecord cfg x = .ok (recordOf cfg.sectDigit x) := by
  have hl := recordWrites_length cfg.sectDigit h
  have hle : writtenLength (recordWrites cfg.sectDigit x) ≤ 183 := by rw [hl]; split_ifs <;> omega
  have hb := BitWriter.writeAll_ok (cfg := cfg) (recordWrites cfg.sectDigit x) BitWriter.reset_inv rfl
    (overCapacity_mono (by simp [BitWriter.written, BitWriter.reset]; omega) hcap)
  obtain ⟨h1, h2⟩ := BitWriter.putBits_spec BitWriter.reset_inv rfl (writtenBits (recordWrites cfg.sectDigit x))
  rw [encodeRecord, hb]
  simp only
  rw [BitWriter.flush_ok h1 (by rw [BitWriter.putBits_closed]; rfl)]
  simp [recordOf, h2]

/-- Whatever the capacity, the encoder that does not fail gives the record (R152). -/
theorem encodeRecord_eq {cfg : Config} {x : Observation} {B : List Byte} (h : encodeRecord cfg x = .ok B) :
    B = recordOf cfg.sectDigit x := by
  rw [encodeRecord] at h
  split at h
  · cases h
  · rename_i w hw
    have e := BitWriter.writeAll_eq _ hw
    obtain ⟨h1, h2⟩ := BitWriter.putBits_spec BitWriter.reset_inv rfl (writtenBits (recordWrites cfg.sectDigit x))
    rw [← e] at h1 h2
    have ho : w.closed = false := by rw [e, BitWriter.putBits_closed]; rfl
    rw [BitWriter.flush_ok h1 ho] at h
    cases h
    simp [recordOf, h2]

theorem fixedRegion_length (sd : SectDigit) {x : Observation} (h : x.sectors.length ≤ 15) :
    (pack (writtenBits (recordWrites sd x))).length = if x.kk > 99 then 23 else 22 := by
  rw [pack_length, writtenBits_length, recordWrites_length sd h]
  split_ifs <;> rfl

/-- R154. -/
theorem recordOf_length (sd : SectDigit) {x : Observation} (h : x.sectors.length ≤ 15) :
    (recordOf sd x).length = (if x.kk > 99 then 24 else 23) + x.remark.length := by
  simp only [recordOf, List.length_append, fixedRegion_length sd h, List.length_singleton]
  split_ifs <;> omega

/-- Where a field stands in a sequence of fields, in bits from its start. -/
def fieldOffset : List FieldId → FieldId → Nat
  | [], _ => 0
  | g :: gs, f => if g = f then 0 else g.width + fieldOffset gs f

theorem writesAt_fields {B : List Byte} {x : Observation} {fs : List FieldId} {o : Nat}
    (h : WritesAt B (fs.map fun f => ((encCode f (x.get f) : Int), f.width)) o) {f : FieldId} (hf : f ∈ fs) :
    codeAt B (o + fieldOffset fs f) f.width = encCode f (x.get f) := by
  induction fs generalizing o with
  | nil => cases hf
  | cons g gs ih =>
    obtain ⟨h1, h2⟩ := h
    by_cases hg : g = f
    · subst hg
      rw [fieldOffset, if_pos rfl, Nat.add_zero, h1, lowBits_encCode]
    · rw [fieldOffset, if_neg hg, ← Nat.add_assoc]
      exact ih h2 (List.mem_of_ne_of_mem (Ne.symm hg) hf)

theorem writesAt_sectors {B : List Byte} {sd : SectDigit} {l : List Byte} {o : Nat}
    (h : WritesAt B (l.map fun ch => ((sectCode sd ch : Int), sectWidth)) o) (i : Nat) (hi : i < l.length) :
    codeAt B (o + 4 * i) 4 = lowBits 4 (sectCode sd l[i]) := by
  induction l generalizing o i with
  | nil => simp at hi
  | cons a l ih =>
    obtain ⟨h1, h2⟩ := h
    cases i with
    | zero => exact h1
    | succ i =>
      have := ih h2 i (by simpa using hi)
      rw [List.getElem_cons_succ, ← this, sectWidth]
      congr 1; ring

/-- The table of R72 lists the running sums of the widths. -/
theorem firstBit_later (f : FieldId) (hf : f ∈ laterFields) :
    firstBitNormal f = 18 + fieldOffset laterFields f ∧ firstBitEscape f = 26 + fieldOffset laterFields f := by
  revert hf; cases f <;> decide

theorem mem_laterFields (f : FieldId) : f = .ver ∨ f = .kk ∨ f = .obj ∨ f ∈ laterFields := by cases f <;> decide

theorem laterFields_length (x : Observation) :
    writtenLength (laterFields.map fun f => ((encCode f (x.get f) : Int), f.width)) = 97 := by
  simp [writtenLength, laterFields, FieldId.width]

/-- What the wire fields of a record carry (R72, R76 to R86), whatever follows the record. -/
theorem recordOf_codes (sd : SectDigit) (x : Observation) (T : List Byte) :
    codeAt (recordOf sd x ++ T) 8 7 = (if x.kk > 99 then 0 else lowBits 7 x.kk) ∧
    (∀ f, f ≠ .kk → fieldCode (decide (x.kk > 99)) (recordOf sd x ++ T) f = encCode f (x.get f)) ∧
    (x.kk > 99 → codeAt (recordOf sd x ++ T) 18 8 = lowBits 8 x.kk) ∧
    (∀ i, (hi : i < (padSectors x.sectors).length) →
      sectorCode (decide (x.kk > 99)) (recordOf sd x ++ T) i = lowBits 4 (sectCode sd (padSectors x.sectors)[i])) := by
  generalize hB : recordOf sd x ++ T = B
  have hW : WritesAt B (recordWrites sd x) 0 := by
    have := writesAt_pack (recordWrites sd x) ([BitVec.ofNat 8 x.remark.length] ++ x.remark ++ T)
    rw [← hB]
    simpa [recordOf, List.append_assoc] using this
  rw [recordWrites, writesAt_append, writesAt_append, writesAt_append] at hW
  obtain ⟨⟨⟨hV, hK⟩, hF⟩, hS⟩ := hW
  have hver : codeAt B 0 8 = lowBits 8 x.ver := hV.1
  have hl := laterFields_length x
  by_cases hk : x.kk > 99
  · have ho : observerWrites x = [(0, 7), (x.obj, 3), (x.kk, 8)] := by rw [observerWrites, if_pos hk]; rfl
    rw [ho] at hK hF hS
    rw [writtenLength_append, writtenLength_append, hl] at hS
    obtain ⟨k1, k2, k3, -⟩ := hK
    simp only [hk, decide_true, if_true]
    refine ⟨k1, ?_, fun _ => k3, fun i hi => ?_⟩
    · intro f hf
      rcases mem_laterFields f with rfl | rfl | rfl | hm
      · rw [encCode_eq_lowBits (by decide)]; exact hver
      · exact absurd rfl hf
      · rw [encCode_eq_lowBits (by decide)]; exact k2
      · have := writesAt_fields hF hm
        rw [fieldCode, if_pos rfl, if_neg hf, (firstBit_later f hm).2]
        exact this
    · exact writesAt_sectors hS i hi
  · have ho : observerWrites x = [(x.kk, 7), (x.obj, 3)] := by rw [observerWrites, if_neg hk]; rfl
    rw [ho] at hK hF hS
    rw [writtenLength_append, writtenLength_append, hl] at hS
    obtain ⟨k1, k2, -⟩ := hK
    simp only [hk, decide_false, if_false]
    refine ⟨k1, ?_, fun h => h.elim, fun i hi => ?_⟩
    · intro f hf
      rcases mem_laterFields f with rfl | rfl | rfl | hm
      · rw [encCode_eq_lowBits (by decide)]; exact hver
      · exact absurd rfl hf
      · rw [encCode_eq_lowBits (by decide)]; exact k2
      · have := writesAt_fields hF hm
        rw [fieldCode, if_neg (by simp), (firstBit_later f hm).1]
        exact this
    · exact writesAt_sectors hS i hi

end Sys2Proof.Machine
end

