-- ==== Sys2Proof/Laws/RoundTrip.lean ====
section
/-! SUPPORT. Decoding a record (R192, R193). -/

namespace Sys2Proof.Machine

/-! ### Decoding a record -/

/-- The normal form an Observation comes back as (R193). -/
def normalForm (x : Observation) : Observation :=
  { x.mapFields (fun f v => decValue f (encCode f v)) with
    kk := if x.kk > 99 then lowBits 8 x.kk else lowBits 7 x.kk
    sectors := rtrim (x.sectors.map fun ch => if inAlphabet ch then ch else space)
    remark := x.remark }

theorem escapeRecord_recordOf {sd : SectDigit} {x : Observation} (T : List Byte)
    (hk : x.kk > 99 ∨ lowBits 7 x.kk ≠ 0) : escapeRecord (recordOf sd x ++ T) = decide (x.kk > 99) := by
  have hc := (recordOf_codes sd x T).1
  have := escapeRecord_iff (recordOf sd x ++ T)
  rw [hc] at this
  by_cases h9 : x.kk > 99
  · simp only [h9, if_true, decide_true, iff_true] at this ⊢; exact this
  · have h0 : lowBits 7 x.kk ≠ 0 := by rcases hk with h | h; exacts [absurd h h9, h]
    simp only [h9, if_false, decide_false] at this ⊢
    simpa [h0] using this

/-- The bytes after the fixed region (R93, R94). -/
theorem recordOf_tail {sd : SectDigit} {x : Observation} (h : x.sectors.length ≤ 15) (hr : x.remark.length ≤ 60)
    (T : List Byte) (F : Nat) (hF : F = if x.kk > 99 then 23 else 22) :
    (byteAt (recordOf sd x ++ T) F).toNat = x.remark.length ∧
    memRead (recordOf sd x ++ T) (F + 1) x.remark.length = x.remark := by
  have hl := fixedRegion_length sd h
  rw [← hF] at hl
  have hlen : BitVec.toNat (BitVec.ofNat 8 x.remark.length) = x.remark.length := by simp; omega
  have e : recordOf sd x ++ T
      = pack (writtenBits (recordWrites sd x)) ++ (BitVec.ofNat 8 x.remark.length :: (x.remark ++ T)) := by
    simp [recordOf]
  rw [e]
  constructor
  · rw [byteAt, List.getD_eq_getElem?_getD, List.getElem?_append_right (by omega), hl]
    simpa using hlen
  · rw [memRead, List.drop_append, List.drop_eq_nil_of_le (by omega), hl]
    simp

/-- An Observation is its 23 numeric fields and its two strings (R30). -/
theorem Observation.ext_get {x y : Observation} (h : ∀ f, x.get f = y.get f) (hs : x.sectors = y.sectors)
    (hr : x.remark = y.remark) : x = y := by
  obtain ⟨⟩ := x
  obtain ⟨⟩ := y
  have h0 := h .ver; have h1 := h .kk; have h2 := h .obj; have h3 := h .year; have h4 := h .month; have h5 := h .day
  have h6 := h .site; have h7 := h .hour; have h8 := h .minute; have h9 := h .dorg; have h10 := h .dur
  have h11 := h .cloud; have h12 := h .cirrus; have h13 := h .lowcloud; have h14 := h .halo; have h15 := h .bright
  have h16 := h .color; have h17 := h .compl; have h18 := h .front; have h19 := h .precip; have h20 := h .region
  have h21 := h .upang; have h22 := h .loang
  simp only [Observation.get] at *
  simp only [*]

@[simp] theorem Observation.get_mapFields (g : FieldId → Int → Int) (x : Observation) (f : FieldId) :
    (x.mapFields g).get f = g f (x.get f) := by cases f <;> rfl

@[simp] theorem Observation.get_normalise (x : Observation) (s r : List Byte) (f : FieldId) :
    (normalise x s r).get f = x.get f := by cases f <;> rfl

@[simp] theorem codesByPosition_get (escape : Bool) (B : List Byte) (f : FieldId) :
    (codesByPosition escape B).get f = fieldCode escape B f := by cases f <;> rfl

theorem normalForm_get (x : Observation) {f : FieldId} (hf : f ≠ .kk) :
    (normalForm x).get f = decValue f (encCode f (x.get f)) := by
  cases f <;> first | rfl | exact absurd rfl hf

/-- Decoding a record gives the normal form (R193). -/
theorem decode_recordOf {sd : SectDigit} (hsd : sd.Admissible) {x : Observation} (h : x.sectors.length ≤ 15)
    (hr : x.remark.length ≤ 60) (hk : x.kk > 99 ∨ lowBits 7 x.kk ≠ 0) (T : List Byte) :
    decodeRecord sd (recordOf sd x ++ T) = .ok (normalForm x, (recordOf sd x).length) := by
  have he := escapeRecord_recordOf (sd := sd) T hk
  have hlen := recordOf_length sd h
  obtain ⟨c1, c2, c3, c4⟩ := recordOf_codes sd x T
  have hF : fixedSize (recordOf sd x ++ T) = if x.kk > 99 then 23 else 22 := by
    rw [fixedSize, he]
    simp only [decide_eq_true_eq, fixedEscape_eq, fixedNormal_eq]
  obtain ⟨t1, t2⟩ := recordOf_tail (sd := sd) h hr T _ hF
  have hlB : (recordOf sd x ++ T).length = (recordOf sd x).length + T.length := List.length_append
  have hn1 : ¬ (recordOf sd x ++ T).length < 22 := by rw [hlB, hlen]; split_ifs <;> omega
  have hn2 : ¬ ((recordOf sd x ++ T).length = 22 ∧ escapeRecord (recordOf sd x ++ T) = true) := by
    rw [hlB, hlen]; split_ifs <;> omega
  rw [decodeRecord_eq, if_neg hn1, if_neg hn2, decodeByPosition, he]
  have hsec : sectChars sd 0 (sectorsByPosition (decide (x.kk > 99)) (recordOf sd x ++ T))
      = .ok ((padSectors x.sectors).map fun ch => if inAlphabet ch then ch else space) := by
    rw [sectChars_eq_ok_iff]
    apply List.ext_getElem
    · simp [sectorsByPosition, padSectors_length h]
    · intro i h1 h2
      have hi : i < (padSectors x.sectors).length := by simpa using h2
      simp only [sectorsByPosition, List.getElem_map, List.getElem_range, c4 i hi]
      have hlt := sectCode_lt hsd (padSectors x.sectors)[i]
      have : lowBits 4 (sectCode sd (padSectors x.sectors)[i] : Int) = sectCode sd (padSectors x.sectors)[i] := by
        have := lowBits_of_range (n := 4) (v := (sectCode sd (padSectors x.sectors)[i] : Int)) (by omega) (by omega)
        exact_mod_cast this
      rw [this, sectChar_sectCode hsd]
  rw [hsec]
  simp only
  have hfr : frameRemark (recordOf sd x ++ T) = .ok (x.remark, (recordOf sd x).length) := by
    have e : fixedSize (recordOf sd x ++ T) + 1 + x.remark.length = (recordOf sd x).length := by
      rw [hF, hlen]; split_ifs <;> omega
    rcases frameRemark_cases (recordOf sd x ++ T) with ⟨h1, _⟩ | ⟨h1, h2, _⟩ | ⟨_, _, h3⟩
    · rw [hlB] at h1; omega
    · rw [t1, hlB] at h2; omega
    · rw [h3, t1, t2, e]
  rw [hfr]
  simp only
  have hspace : (padSectors x.sectors).map (fun ch => if inAlphabet ch then ch else space)
      = x.sectors.map (fun ch => if inAlphabet ch then ch else space)
        ++ List.replicate (sectLen - x.sectors.length) space := by
    rw [padSectors, List.map_append, List.map_replicate]; rfl
  have hkk : (fieldCode (decide (x.kk > 99)) (recordOf sd x ++ T) .kk : Int) = (normalForm x).kk := by
    by_cases h9 : x.kk > 99
    · simp only [normalForm, h9, decide_true, if_true]; exact_mod_cast c3 h9
    · simp only [normalForm, h9, decide_false, if_false] at c1 ⊢; exact_mod_cast c1
  congr 2
  apply Observation.ext_get
  · intro f
    by_cases hf : f = .kk
    · subst hf
      rw [Observation.get_normalise, Observation.get_mapFields, codesByPosition_get, hkk]
      simp [decValue, FieldId.sentinel, Observation.get]
    · rw [Observation.get_normalise, Observation.get_mapFields, codesByPosition_get, c2 f hf, normalForm_get x hf]
  · show rtrim _ = rtrim _
    rw [hspace, rtrim_append_spaces]
  · exact List.take_of_length_le (show _ ≤ remarkMax from hr)

theorem fieldClass (f : FieldId) : f = .ver ∨ f = .kk ∨ f = .dorg ∨ f ∈ plainFields ∨ f ∈ sentinelFields := by
  cases f <;> decide

/-- Where nothing is lost: on the faithful set the normal form is the Observation itself (R35). -/
theorem normalForm_of_faithful {x : Observation} (h : x.faithful = true) : normalForm x = x := by
  simp only [Observation.faithful, Bool.and_eq_true, decide_eq_true_eq, List.all_eq_true, bne_iff_ne] at h
  obtain ⟨⟨⟨⟨⟨⟨⟨⟨hv, hk⟩, hd⟩, hp⟩, hs⟩, ha⟩, -⟩, hl⟩, -⟩ := h
  apply Observation.ext_get
  · intro f
    by_cases hf : f = .kk
    · subst hf
      have hk' : 1 ≤ x.kk ∧ x.kk ≤ 255 := by simpa [FieldId.faithful] using hk
      show (if x.kk > 99 then (lowBits 8 x.kk : Nat) else (lowBits 7 x.kk : Nat) : Int) = x.kk
      split_ifs
      · exact lowBits_of_range (by omega) (by norm_num; omega)
      · exact lowBits_of_range (by omega) (by norm_num; omega)
    · rw [normalForm_get x hf]
      have hff : f.faithful (x.get f) = true := by
        rcases fieldClass f with rfl | rfl | rfl | h1 | h1
        · exact hv
        · exact hk
        · exact hd
        · exact hp f h1
        · exact hs f h1
      exact decValue_encCode hff hf
  · show rtrim _ = _
    have : x.sectors.map (fun ch => if inAlphabet ch then ch else space) = x.sectors := by
      conv_rhs => rw [← List.map_id x.sectors]
      apply List.map_congr_left
      intro ch hch
      simp [ha ch hch]
    rw [this, rtrim_of_getLast? hl]
  · rfl

theorem faithful_wf {x : Observation} (h : x.faithful = true) : x.sectors.length ≤ 15 ∧ x.remark.length ≤ 60 := by
  simp only [Observation.faithful, Bool.and_eq_true, decide_eq_true_eq] at h
  exact ⟨h.1.1.2, h.2⟩

theorem faithful_kk {x : Observation} (h : x.faithful = true) : x.kk > 99 ∨ lowBits 7 x.kk ≠ 0 := by
  have hk : 1 ≤ x.kk ∧ x.kk ≤ 255 := by
    simp only [Observation.faithful, Bool.and_eq_true, FieldId.faithful, decide_eq_true_eq] at h
    exact h.1.1.1.1.1.1.1.2
  by_cases h9 : x.kk > 99
  · exact .inl h9
  · have := lowBits_of_range (n := 7) (v := x.kk) (by omega) (by norm_num; omega)
    exact .inr (by omega)

/-- The round trip (R192). -/
theorem decode_recordOf_faithful {sd : SectDigit} (hsd : sd.Admissible) {x : Observation} (h : x.faithful = true)
    (T : List Byte) : decodeRecord sd (recordOf sd x ++ T) = .ok (x, (recordOf sd x).length) := by
  rw [decode_recordOf hsd (faithful_wf h).1 (faithful_wf h).2 (faithful_kk h), normalForm_of_faithful h]

end Sys2Proof.Machine
end

