-- ==== Sys2Proof/Laws/DecoderBounds.lean ====
section
/-! SUPPORT. What a decode depends on (R181, R187), what it returns (R190) and which conditions it raises (R230). -/

namespace Sys2Proof.Machine

/-! ### What a decode depends on (R181, R187) -/

theorem byteAt_of_take {A B : List Byte} {k j : Nat} (h : A.take k = B.take k) (hj : j < k) : byteAt A j = byteAt B j := by
  have := congrArg (fun l => l[j]?) h
  simp only [List.getElem?_take, hj, if_true] at this
  simp [byteAt, List.getD_eq_getElem?_getD, this]

theorem streamBit_of_take {A B : List Byte} {k j : Nat} (h : A.take k = B.take k) (hj : j < 8 * k) :
    streamBit A j = streamBit B j := by
  rw [streamBit, streamBit, byteAt_of_take h (by omega)]

theorem codeAt_of_take {A B : List Byte} {k o n : Nat} (h : A.take k = B.take k) (hj : o + n ≤ 8 * k) :
    codeAt A o n = codeAt B o n := by
  rw [codeAt, codeAt]
  congr 1
  apply List.map_congr_left
  intro i hi
  rw [List.mem_range] at hi
  exact streamBit_of_take h (by omega)

theorem escapeRecord_of_take {A B : List Byte} {k : Nat} (h : A.take k = B.take k) (hk : 2 ≤ k) :
    escapeRecord A = escapeRecord B := by
  rw [escapeRecord, escapeRecord, byteAt_of_take h (by omega)]

theorem codesByPosition_of_take {A B : List Byte} {k : Nat} (esc : Bool) (h : A.take k = B.take k)
    (hk : (if esc then 23 else 22) ≤ k) : codesByPosition esc A = codesByPosition esc B := by
  apply Observation.ext_get
  · intro f
    rw [codesByPosition_get, codesByPosition_get]
    cases esc
    · simp only [fieldCode, Bool.false_eq_true, if_false] at hk ⊢
      rw [codeAt_of_take h]
      have : ∀ f : FieldId, firstBitNormal f + f.width ≤ 176 := by intro f; cases f <;> decide
      have := this f; omega
    · simp only [fieldCode, if_true] at hk ⊢
      rw [codeAt_of_take h]
      have : ∀ f : FieldId, firstBitEscape f + (if f = .kk then 8 else f.width) ≤ 184 := by intro f; cases f <;> decide
      have := this f; omega
  · rfl
  · rfl

theorem sectorsByPosition_of_take {A B : List Byte} {k : Nat} (esc : Bool) (h : A.take k = B.take k)
    (hk : (if esc then 23 else 22) ≤ k) : sectorsByPosition esc A = sectorsByPosition esc B := by
  apply List.map_congr_left
  intro i hi
  rw [List.mem_range] at hi
  rw [sectorCode, sectorCode]
  apply codeAt_of_take h
  cases esc <;> simp at hk ⊢ <;> omega

theorem fixedSize_eq (B : List Byte) : fixedSize B = if escapeRecord B then 23 else 22 := rfl

theorem fixedSize_le (B : List Byte) : 22 ≤ fixedSize B ∧ fixedSize B ≤ 23 := by
  rw [fixedSize_eq]; split_ifs <;> omega

/-- Everything a successful decode says about the buffer (R183, R186, R187). -/
theorem decodeRecord_ok {sd : SectDigit} {B : List Byte} {x : Observation} {k : Nat}
    (h : decodeRecord sd B = .ok (x, k)) :
    k = fixedSize B + 1 + (byteAt B (fixedSize B)).toNat ∧ (byteAt B (fixedSize B)).toNat ≤ 60 ∧ k ≤ B.length ∧
    ∃ chars, sectChars sd 0 (sectorsByPosition (escapeRecord B) B) = .ok chars ∧
      x = normalise ((codesByPosition (escapeRecord B) B).mapFields decValue) chars
        (memRead B (fixedSize B + 1) (byteAt B (fixedSize B)).toNat) := by
  rw [decodeRecord_eq] at h
  by_cases h1 : B.length < 22
  · rw [if_pos h1] at h; cases h
  rw [if_neg h1] at h
  by_cases h2 : B.length = 22 ∧ escapeRecord B = true
  · rw [if_pos h2] at h; cases h
  rw [if_neg h2, decodeByPosition] at h
  cases hc : sectChars sd 0 (sectorsByPosition (escapeRecord B) B) with
  | error e => rw [hc] at h; cases h
  | ok chars =>
    rw [hc] at h
    rcases frameRemark_cases B with ⟨_, hf⟩ | ⟨_, _, hf⟩ | ⟨h60, hlen, hf⟩
    · rw [hf] at h; cases h
    · rw [hf] at h; cases h
    · rw [hf] at h
      cases h
      exact ⟨rfl, h60, hlen, chars, rfl, rfl⟩

/-- A decode reads the record and nothing after it (R181, D19). -/
theorem decodeRecord_of_take {sd : SectDigit} {A B : List Byte} {x : Observation} {k : Nat}
    (h : decodeRecord sd B = .ok (x, k)) (ht : A.take k = B.take k) (hl : k ≤ A.length) :
    decodeRecord sd A = .ok (x, k) := by
  obtain ⟨hk, h60, hB, chars, hc, hx⟩ := decodeRecord_ok h
  have hF := fixedSize_le B
  have he := escapeRecord_of_take ht (by omega)
  have hfs : fixedSize A = fixedSize B := by rw [fixedSize_eq, fixedSize_eq, he]
  have hFe : (if escapeRecord B then 23 else 22) ≤ k := by rw [← fixedSize_eq]; omega
  have hb : byteAt A (fixedSize B) = byteAt B (fixedSize B) := byteAt_of_take ht (by omega)
  have hm : memRead A (fixedSize B + 1) (byteAt B (fixedSize B)).toNat
      = memRead B (fixedSize B + 1) (byteAt B (fixedSize B)).toNat := by
    have := congrArg (List.drop (fixedSize B + 1)) ht
    rw [List.drop_take, List.drop_take] at this
    have e : k - (fixedSize B + 1) = (byteAt B (fixedSize B)).toNat := by omega
    rw [e] at this; exact this
  have hn : ¬ (A.length = 22 ∧ escapeRecord A = true) := by omega
  rw [decodeRecord_eq, if_neg (by omega), if_neg hn, decodeByPosition, he,
    sectorsByPosition_of_take _ ht hFe, hc]
  simp only
  rcases frameRemark_cases A with ⟨h1, _⟩ | ⟨_, h2, _⟩ | ⟨_, _, hf⟩
  · rw [hfs] at h1; omega
  · rw [hfs, hb] at h2; omega
  · rw [hf, hfs, hb, hm, codesByPosition_of_take _ ht hFe, hx, hk]

/-- The decoder's answer up to the information record is settled by the first 84 bytes (R221). -/
theorem decodeRecord_take {sd : SectDigit} {m : Nat} (hm : 84 ≤ m) (B : List Byte) :
    (decodeRecord sd (B.take m)).mapError Condition.code = (decodeRecord sd B).mapError Condition.code := by
  by_cases hB : B.length ≤ m
  · rw [List.take_of_length_le hB]
  have ht : (B.take m).take m = B.take m := by rw [List.take_take, Nat.min_self]
  have hl : (B.take m).length = m := by rw [List.length_take]; omega
  have he := escapeRecord_of_take ht (by omega)
  have hF := fixedSize_le B
  have hfs : fixedSize (B.take m) = fixedSize B := by rw [fixedSize_eq, fixedSize_eq, he]
  have hFe : (if escapeRecord B then 23 else 22) ≤ m := by rw [← fixedSize_eq]; omega
  have hb : byteAt (B.take m) (fixedSize B) = byteAt B (fixedSize B) := byteAt_of_take ht (by omega)
  rw [decodeRecord_eq, decodeRecord_eq, if_neg (by omega), if_neg (by omega), if_neg (by omega), if_neg (by omega),
    decodeByPosition, decodeByPosition, he, sectorsByPosition_of_take _ ht hFe, codesByPosition_of_take _ ht hFe]
  cases hc : sectChars sd 0 (sectorsByPosition (escapeRecord B) B) with
  | error e => rfl
  | ok chars =>
    simp only
    rcases frameRemark_cases (B.take m) with ⟨h1, _⟩ | ⟨h1, h2, hf⟩ | ⟨h1, h2, hf⟩
    · rw [hfs] at h1; omega
    · rcases frameRemark_cases B with ⟨h1', _⟩ | ⟨_, _, hf'⟩ | ⟨h3, _, _⟩
      · omega
      · rw [hf, hf']; rfl
      · rw [hfs, hb] at h2; omega
    · rcases frameRemark_cases B with ⟨h1', _⟩ | ⟨_, h3, _⟩ | ⟨_, _, hf'⟩
      · omega
      · rw [hfs, hb] at h1 h2; omega
      · rw [hf, hf', hfs, hb]
        have : memRead (B.take m) (fixedSize B + 1) (byteAt B (fixedSize B)).toNat
            = memRead B (fixedSize B + 1) (byteAt B (fixedSize B)).toNat := by
          rw [hfs, hb] at h2
          rw [memRead, memRead, List.drop_take, List.take_take]
          congr 1; omega
        rw [this]

/-- Bounds of a decoded record (R187). -/
theorem decodeRecord_bounds {sd : SectDigit} {B : List Byte} {x : Observation} {k : Nat}
    (h : decodeRecord sd B = .ok (x, k)) : 23 ≤ k ∧ k ≤ 84 ∧ k ≤ B.length := by
  obtain ⟨hk, h60, hB, -⟩ := decodeRecord_ok h
  have := fixedSize_le B
  omega

/-- A decoded Observation is normal (R190). -/
theorem decodeRecord_normal {sd : SectDigit} {B : List Byte} {x : Observation} {k : Nat}
    (h : decodeRecord sd B = .ok (x, k)) : normalObservation x = true := by
  obtain ⟨-, h60, hB, chars, hc, rfl⟩ := decodeRecord_ok h
  have h1 := rtrim_length_le chars
  have h2 := sectChars_ok hc
  have h3 : (sectorsByPosition (escapeRecord B) B).length = 15 := by simp [sectorsByPosition]
  have h4 := rtrim_getLast? chars
  have h5 : (rtrim chars).length ≤ sectLen := by show _ ≤ 15; omega
  have h6 : (List.take remarkMax (memRead B (fixedSize B + 1) (byteAt B (fixedSize B)).toNat)).length ≤ remarkMax :=
    List.length_take_le ..
  simp only [normalObservation, Observation.wf, normalise, Bool.and_eq_true, bne_iff_ne]
  exact ⟨⟨decide_eq_true h5, decide_eq_true h6⟩, h4⟩

/-- The conditions of the decoder (R183, R230): `TruncatedRecord` exactly on fewer than 22 bytes. -/
theorem decodeRecord_error {sd : SectDigit} {B : List Byte} {e : Condition} (h : decodeRecord sd B = .error e) :
    (e = .truncatedRecord B.length ∧ B.length < 22) ∨
    (22 ≤ B.length ∧ e.endsStream = false ∧ ConditionCode.decodeFailure e.code = true) := by
  rw [decodeRecord_eq] at h
  by_cases h1 : B.length < 22
  · rw [if_pos h1] at h; cases h; exact .inl ⟨rfl, h1⟩
  rw [if_neg h1] at h
  refine .inr ⟨by omega, ?_⟩
  by_cases h2 : B.length = 22 ∧ escapeRecord B = true
  · rw [if_pos h2] at h; cases h; exact ⟨rfl, rfl⟩
  rw [if_neg h2, decodeByPosition] at h
  cases hc : sectChars sd 0 (sectorsByPosition (escapeRecord B) B) with
  | error e' =>
    rw [hc] at h
    cases h
    obtain ⟨j, hj, rfl, -⟩ := sectChars_eq_error hc
    exact ⟨rfl, rfl⟩
  | ok chars =>
    rw [hc] at h
    rcases frameRemark_cases B with ⟨_, hf⟩ | ⟨_, _, hf⟩ | ⟨_, _, hf⟩ <;> rw [hf] at h <;> cases h <;> exact ⟨rfl, rfl⟩

/-- What a prefix of a record, or an extension of one, shows of the record (R194). -/
theorem recordOf_take {sd : SectDigit} {x : Observation} {B : List Byte} (T : List Byte) (m : Nat) (hsd : sd.Admissible)
    (hx : x.wf = true) (hk : lowBits 7 x.kk ≠ 0 ∨ x.kk > 99) (hB : B = recordOf sd x) (h2 : 2 ≤ m) :
    escapeRecord ((B ++ T).take m) = decide (x.kk > 99) ∧
    fixedSize ((B ++ T).take m) = (if x.kk > 99 then 23 else 22) ∧
    ((if x.kk > 99 then 23 else 22) ≤ m →
      ∃ chars, sectChars sd 0 (sectorsByPosition (decide (x.kk > 99)) ((B ++ T).take m)) = .ok chars) ∧
    ((if x.kk > 99 then 24 else 23) ≤ m →
      (byteAt ((B ++ T).take m) (if x.kk > 99 then 23 else 22)).toNat = x.remark.length) := by
  obtain ⟨hs, hr⟩ := (Observation.wf_iff x).mp hx
  have ht : ((B ++ T).take m).take m = (B ++ T).take m := by rw [List.take_take, Nat.min_self]
  have he0 := escapeRecord_recordOf (sd := sd) T hk.symm
  rw [← hB] at he0
  have he : escapeRecord ((B ++ T).take m) = decide (x.kk > 99) := by rw [escapeRecord_of_take ht h2, he0]
  have hF : fixedSize ((B ++ T).take m) = (if x.kk > 99 then 23 else 22) := by rw [fixedSize_eq, he]; simp
  refine ⟨he, hF, ?_, ?_⟩
  · intro hm
    have hd := decode_recordOf hsd hs hr hk.symm T
    rw [← hB] at hd
    obtain ⟨-, -, -, chars, hc, -⟩ := decodeRecord_ok hd
    rw [he0] at hc
    refine ⟨chars, ?_⟩
    rw [sectorsByPosition_of_take _ ht (by simpa using hm), hc]
  · intro hm
    obtain ⟨t1, -⟩ := recordOf_tail (sd := sd) hs hr T (if x.kk > 99 then 23 else 22) rfl
    rw [← hB] at t1
    rw [byteAt_of_take ht (by split_ifs at hm ⊢ <;> omega), t1]

end Sys2Proof.Machine
end

