-- ==== Sys2Proof/Laws/State.lean ====
section
/-! SUPPORT. What each update of the state does to each field, so that no proof unfolds a record update. -/

namespace Sys2Proof.Machine

variable (s : State) (r : Result) (c : Condition)

@[simp] theorem State.succeed_bw : (s.succeed r).bw = s.bw := rfl
@[simp] theorem State.succeed_br : (s.succeed r).br = s.br := rfl
@[simp] theorem State.succeed_rs : (s.succeed r).rs = s.rs := rfl
@[simp] theorem State.succeed_pending : (s.succeed r).pending = s.pending := rfl
@[simp] theorem State.succeed_response : (s.succeed r).response = some (.ok r) := rfl
@[simp] theorem State.succeed_free : (s.succeed r).free = s.free := rfl

@[simp] theorem State.raise_bw : (s.raise c).bw = s.bw := rfl
@[simp] theorem State.raise_br : (s.raise c).br = s.br := rfl
@[simp] theorem State.raise_rs : (s.raise c).rs = s.rs := rfl
@[simp] theorem State.raise_pending : (s.raise c).pending = s.pending := rfl
@[simp] theorem State.raise_response : (s.raise c).response = some (.condition c) := rfl
@[simp] theorem State.raise_free : (s.raise c).free = s.free := rfl

@[simp] theorem State.takeReset_bw : s.takeReset.bw = .reset := rfl
@[simp] theorem State.takeReset_br : s.takeReset.br = .reset := rfl
@[simp] theorem State.takeReset_rs_src : s.takeReset.rs.src = [] := rfl
@[simp] theorem State.takeReset_rs_off : s.takeReset.rs.off = 0 := rfl
@[simp] theorem State.takeReset_rs_status : s.takeReset.rs.status = .running := rfl
@[simp] theorem State.takeReset_pending : s.takeReset.pending = s.pending := rfl
@[simp] theorem State.takeReset_response : s.takeReset.response = none := rfl
@[simp] theorem State.takeReset_free : s.takeReset.free = s.free + 1 := rfl

end Sys2Proof.Machine
end

