-- ==== Sys2Proof/Laws/Stream.lean ====
section
/-! SUPPORT. Everything RS.NEXT can do, and the streams of RS.ALL (R212 to R221). -/

namespace Sys2Proof.Machine

/-! ### The stream (R212 to R221) -/

theorem chunk_eq (cfg : Config) (r : RecordStream) : r.chunk cfg = (r.src.drop r.off).take cfg.chunk := by
  rw [RecordStream.chunk, memRead]
  rcases Nat.le_total cfg.chunk (r.src.length - r.off) with h | h
  · rw [Nat.min_eq_left h]
  · rw [Nat.min_eq_right h, List.take_of_length_le, List.take_of_length_le] <;> simp; omega

/-- Everything `RS.NEXT` can do while the stream runs, by the decode of the rest of the source (R214, R221). -/
theorem next_running {cfg : Config} (hc : 84 ≤ cfg.chunk) {r : RecordStream} (hr : r.status = .running) :
    (∃ x k, decodeRecord cfg.sectDigit (r.src.drop r.off) = .ok (x, k) ∧
      r.next cfg = ({ r with off := r.off + k }, .item x)) ∨
    (r.src.length - r.off < 22 ∧ decodeRecord cfg.sectDigit (r.src.drop r.off) = .error (.truncatedRecord (r.src.length - r.off)) ∧
      r.next cfg = ({ r with status := .ended }, .streamEnd)) ∨
    (∃ e, 22 ≤ r.src.length - r.off ∧ decodeRecord cfg.sectDigit (r.src.drop r.off) = .error e ∧ e.endsStream = false ∧
      ConditionCode.decodeFailure e.code = true ∧
      r.next cfg = ({ r with errOff := r.off, errCause := e.code, status := .error }, .streamError r.off e.code)) := by
  have ht := decodeRecord_take (sd := cfg.sectDigit) hc (r.src.drop r.off)
  rw [← chunk_eq] at ht
  have hn : r.next cfg = match decodeRecord cfg.sectDigit (r.chunk cfg) with
    | .ok (x, consumed) => ({ r with off := r.off + consumed }, .item x)
    | .error e => if e.endsStream then ({ r with status := .ended }, .streamEnd)
      else ({ r with errOff := r.off, errCause := e.code, status := .error }, .streamError r.off e.code) := by
    obtain ⟨src, off, status, errOff, errCause⟩ := r
    subst hr
    rfl
  have hlen : (r.src.drop r.off).length = r.src.length - r.off := List.length_drop
  cases hd : decodeRecord cfg.sectDigit (r.src.drop r.off) with
  | ok p =>
    obtain ⟨x, k⟩ := p
    cases hd' : decodeRecord cfg.sectDigit (r.chunk cfg) with
    | error e => rw [hd, hd'] at ht; cases ht
    | ok p' =>
      rw [hd, hd'] at ht
      cases ht
      exact .inl ⟨x, k, rfl, by rw [hn, hd']⟩
  | error e =>
    cases hd' : decodeRecord cfg.sectDigit (r.chunk cfg) with
    | ok p' => rw [hd, hd'] at ht; cases ht
    | error e' =>
      rw [hd, hd'] at ht
      have hcode : e'.code = e.code := by simpa [Except.mapError] using ht
      have hends : ∀ a b : Condition, a.code = b.code → a.endsStream = b.endsStream := by
        intro a b; cases a <;> cases b <;> simp [Condition.code, Condition.endsStream]
      have h2 := hends _ _ hcode
      rcases decodeRecord_error hd with ⟨rfl, h3⟩ | ⟨h3, h4, h5⟩
      · refine .inr (.inl ⟨by omega, by rw [hlen], ?_⟩)
        rw [hn, hd']; simp only; rw [h2]; rfl
      · refine .inr (.inr ⟨e, by omega, rfl, h4, h5, ?_⟩)
        rw [hn, hd']; simp only; rw [h2, h4, hcode]; rfl

theorem next_terminal (cfg : Config) {r : RecordStream} (hr : r.status ≠ .running) : (r.next cfg).1 = r := by
  cases h : r.status <;> simp_all [RecordStream.next]

/-- `RS.NEXT` keeps the stream's invariant (R28, R214). -/
theorem next_inv {cfg : Config} (hc : 84 ≤ cfg.chunk) {r : RecordStream} (h : r.Inv) :
    (r.next cfg).1.Inv ∧ (r.next cfg).2.inv = true := by
  cases hs : r.status with
  | running =>
    rcases next_running hc hs with ⟨x, k, hd, hn⟩ | ⟨hl, -, hn⟩ | ⟨e, -, -, -, h5, hn⟩
    · have hb := (decodeRecord_bounds hd).2.2
      rw [List.length_drop] at hb
      have := h.off_le
      rw [hn]
      exact ⟨⟨by simp only; omega, by simp [hs], by simp [hs]⟩, decodeRecord_normal hd⟩
    · rw [hn]
      exact ⟨⟨h.off_le, fun _ => hl, by simp⟩, rfl⟩
    · rw [hn]
      exact ⟨⟨h.off_le, by simp, fun _ => ⟨rfl, h5⟩⟩, h5⟩
  | ended =>
    have : r.next cfg = (r, .streamEnd) := by rw [RecordStream.next, hs]
    rw [this]; exact ⟨h, rfl⟩
  | error =>
    have : r.next cfg = (r, .streamError r.errOff r.errCause) := by rw [RecordStream.next, hs]
    rw [this]; exact ⟨h, (h.error_at hs).2⟩

/-- Draining a running stream whose rest is whole records and stray bytes (R217, R218). -/
theorem drain_records {cfg : Config} (hc : 84 ≤ cfg.chunk) (hsd : cfg.sectDigit.Admissible) {T : List Byte}
    (hT : T.length < 22) (xs : List Observation) (hx : ∀ x ∈ xs, x.faithful = true) {r : RecordStream}
    (hr : r.status = .running) (ho : r.off ≤ r.src.length)
    (hd : r.src.drop r.off = xs.flatMap (recordOf cfg.sectDigit) ++ T) {fuel : Nat} (hf : xs.length < fuel) :
    r.drain cfg fuel = some (xs, .ended (r.off + (xs.flatMap (recordOf cfg.sectDigit)).length)) := by
  have hlen : r.src.length - r.off = (xs.flatMap (recordOf cfg.sectDigit)).length + T.length := by
    rw [← List.length_drop, hd, List.length_append]
  induction xs generalizing r fuel with
  | nil =>
    obtain ⟨fuel, rfl⟩ : ∃ f, fuel = f + 1 := ⟨fuel - 1, by omega⟩
    simp only [List.flatMap_nil, List.length_nil] at hlen ⊢
    rcases next_running hc hr with ⟨x, k, h1, -⟩ | ⟨-, -, hn⟩ | ⟨e, h1, -⟩
    · have := (decodeRecord_bounds h1); rw [List.length_drop] at this; omega
    · rw [RecordStream.drain, hn]; rfl
    · omega
  | cons x xs ih =>
    obtain ⟨fuel, rfl⟩ : ∃ f, fuel = f + 1 := ⟨fuel - 1, by omega⟩
    have hrt := decode_recordOf_faithful hsd (hx x (by simp)) (xs.flatMap (recordOf cfg.sectDigit) ++ T)
    have e : r.src.drop r.off
        = recordOf cfg.sectDigit x ++ (xs.flatMap (recordOf cfg.sectDigit) ++ T) := by rw [hd]; simp
    rw [← e] at hrt
    have hn : r.next cfg = ({ r with off := r.off + (recordOf cfg.sectDigit x).length }, .item x) := by
      rcases next_running hc hr with ⟨y, k, h1, hn⟩ | ⟨-, h1, -⟩ | ⟨e, -, h1, -⟩
      · rw [hrt] at h1; cases h1; exact hn
      · rw [hrt] at h1; cases h1
      · rw [hrt] at h1; cases h1
    have hle : (recordOf cfg.sectDigit x).length ≤ r.src.length - r.off := by
      rw [← List.length_drop, e, List.length_append]; omega
    have := ih (fun y hy => hx y (by simp [hy])) (r := { r with off := r.off + (recordOf cfg.sectDigit x).length })
      hr (by simp only; omega) (by simp only; rw [← List.drop_drop, e, List.drop_left]) (fuel := fuel)
      (by simp at hf; omega) (by
        simp only; rw [← List.length_drop, ← List.drop_drop, e, List.drop_left, List.length_append])
    rw [RecordStream.drain, hn]
    simp only
    rw [this]
    simp [Nat.add_assoc]

/-- Draining whole records and then whatever follows. -/
theorem drain_append {cfg : Config} (hc : 84 ≤ cfg.chunk) (hsd : cfg.sectDigit.Admissible) {T : List Byte}
    (xs : List Observation) (hx : ∀ x ∈ xs, x.faithful = true) {r : RecordStream}
    (hr : r.status = .running) (ho : r.off ≤ r.src.length)
    (hd : r.src.drop r.off = xs.flatMap (recordOf cfg.sectDigit) ++ T) {fuel : Nat} :
    r.drain cfg (xs.length + fuel) =
      match RecordStream.drain cfg fuel { r with off := r.off + (xs.flatMap (recordOf cfg.sectDigit)).length } with
      | some (ys, t) => some (xs ++ ys, t)
      | none => none := by
  induction xs generalizing r with
  | nil => simp only [List.flatMap_nil, List.length_nil, Nat.zero_add, Nat.add_zero, List.nil_append]
           generalize RecordStream.drain cfg fuel _ = o
           rcases o with _ | ⟨_, _⟩ <;> rfl
  | cons x xs ih =>
    have hlen : r.src.length - r.off = ((x :: xs).flatMap (recordOf cfg.sectDigit)).length + T.length := by
      rw [← List.length_drop, hd, List.length_append]
    have hrt := decode_recordOf_faithful hsd (hx x (by simp)) (xs.flatMap (recordOf cfg.sectDigit) ++ T)
    have e : r.src.drop r.off
        = recordOf cfg.sectDigit x ++ (xs.flatMap (recordOf cfg.sectDigit) ++ T) := by rw [hd]; simp
    rw [← e] at hrt
    have hn : r.next cfg = ({ r with off := r.off + (recordOf cfg.sectDigit x).length }, .item x) := by
      rcases next_running hc hr with ⟨y, k, h1, hn⟩ | ⟨-, h1, -⟩ | ⟨e, -, h1, -⟩
      · rw [hrt] at h1; cases h1; exact hn
      · rw [hrt] at h1; cases h1
      · rw [hrt] at h1; cases h1
    have hle : (recordOf cfg.sectDigit x).length ≤ r.src.length - r.off := by
      rw [← List.length_drop, e, List.length_append]; omega
    have := ih (fun y hy => hx y (by simp [hy])) (r := { r with off := r.off + (recordOf cfg.sectDigit x).length })
      hr (by simp only; omega) (by simp only; rw [← List.drop_drop, e, List.drop_left])
    have e2 : (x :: xs).length + fuel = (xs.length + fuel) + 1 := by simp; omega
    rw [e2, RecordStream.drain, hn]
    simp only
    rw [this]
    simp only [List.flatMap_cons, List.length_append, Nat.add_assoc]
    generalize RecordStream.drain cfg fuel _ = o
    rcases o with _ | ⟨_, _⟩ <;> rfl

/-- Every drain ends: each item moves the cursor by at least 23 bytes (R214, R216). -/
theorem drain_total {cfg : Config} (hc : 84 ≤ cfg.chunk) (fuel : Nat) {r : RecordStream} (ho : r.off ≤ r.src.length)
    (hf : (r.src.length - r.off) / 23 < fuel) : (r.drain cfg fuel).isSome = true := by
  induction fuel generalizing r with
  | zero => omega
  | succ fuel ih =>
    rw [RecordStream.drain]
    cases hs : r.status with
    | running =>
      rcases next_running hc hs with ⟨x, k, hd, hn⟩ | ⟨hl, -, hn⟩ | ⟨e, -, -, -, h5, hn⟩
      · have hb := decodeRecord_bounds hd
        rw [List.length_drop] at hb
        have := ih (r := { r with off := r.off + k }) (by simp only; omega) (by simp only; omega)
        rw [hn]
        simp only
        cases hdr : RecordStream.drain cfg fuel { r with off := r.off + k } with
        | none => rw [hdr] at this; cases this
        | some p => rfl
      · rw [hn]; rfl
      · rw [hn]; rfl
    | ended =>
      have : r.next cfg = (r, .streamEnd) := by rw [RecordStream.next, hs]
      rw [this]; rfl
    | error =>
      have : r.next cfg = (r, .streamError r.errOff r.errCause) := by rw [RecordStream.next, hs]
      rw [this]; rfl

end Sys2Proof.Machine
end

