-- ==== Sys2Proof/Laws/Exec.lean ====
section
/-! SUPPORT. Everything each operation can do, once: the next state by the case that the rule of the operation
distinguishes. -/

namespace Sys2Proof.Machine

/-- `BW.INIT` (R111). -/
theorem exec_bwInit (s : State) : exec .bwInit s = .next ({ s with bw := .reset }.succeed .none) := rfl

theorem hw_write_open {w : BitWriter} (v : Int) (n : Nat) (ho : w.closed = false) :
    w.write Config.hw v n = .ok (BitWriter.putBits (valueBits v n) w) := BitWriter.write_ok v n ho rfl

/-- `BW.WRITE` (R112): the instance's writer is unbounded. -/
theorem exec_bwWrite (v : Int) (n : Nat) (s : State) :
    (s.bw.closed = true ∧ exec (.bwWrite v n) s = .next (s.raise .writerClosed)) ∨
    (s.bw.closed = false ∧
      exec (.bwWrite v n) s = .next ({ s with bw := BitWriter.putBits (valueBits v n) s.bw }.succeed .none)) := by
  cases hc : s.bw.closed with
  | true => exact .inl ⟨rfl, by simp only [exec, execBwWrite, BitWriter.write_closed v n hc]⟩
  | false => exact .inr ⟨rfl, by simp only [exec, execBwWrite, hw_write_open v n hc]⟩

/-- `BW.FLUSH` (R113). -/
theorem exec_bwFlush (s : State) :
    (s.bw.closed = true ∧ exec .bwFlush s = .next (s.raise .writerClosed)) ∨
    (s.bw.closed = false ∧ ∃ w, s.bw.flush = .ok w ∧ w.closed = true ∧
      exec .bwFlush s = .next ({ s with bw := w }.succeed (.bytes w.buf))) := by
  cases hc : s.bw.closed with
  | true => exact .inl ⟨rfl, by simp only [exec, execBwFlush, BitWriter.flush_closed hc]⟩
  | false =>
    have : ∃ w, s.bw.flush = .ok w ∧ w.closed = true := by
      rw [BitWriter.flush, hc]; simp only [Bool.false_eq_true, if_false]; split <;> exact ⟨_, rfl, rfl⟩
    obtain ⟨w, hw, hcl⟩ := this
    exact .inr ⟨rfl, w, hw, hcl, by simp only [exec, execBwFlush, hw]⟩

/-- `BR.LOAD` (R132). -/
theorem exec_brLoad (b : List Byte) (s : State) :
    exec (.brLoad b) s = .next ({ s with br := .load b }.succeed .none) := rfl

/-- `BR.READ` (R133). -/
theorem exec_brRead (n : Nat) (s : State) :
    (s.br.cur + n ≤ 8 * s.br.src.length ∧ exec (.brRead n) s =
      .next ({ s with br := { s.br with cur := s.br.cur + n } }.succeed (.value n (codeAt s.br.src s.br.cur n)))) ∨
    (8 * s.br.src.length < s.br.cur + n ∧
      exec (.brRead n) s = .next (s.raise (.unexpectedEndOfData s.br.cur n s.br.src.length))) := by
  rcases BitReader.read_cases s.br n with ⟨h, hr⟩ | ⟨h, hr⟩
  · exact .inl ⟨h, by simp only [exec, execBrRead, hr]⟩
  · exact .inr ⟨h, by simp only [exec, execBrRead, hr]⟩

/-- `ENC.ENCODE` (R152): the instance's private writer is unbounded. -/
theorem exec_encEncode (x : Observation) (s : State) :
    (x.wf = true ∧ exec (.encEncode x) s = .next (s.succeed (.bytes (recordOf Config.hw.sectDigit x)))) ∨
    (x.wf = false ∧ exec (.encEncode x) s = .refused .observationTooLong) := by
  cases hx : x.wf with
  | true =>
    have := encodeRecord_ok (cfg := Config.hw) rfl ((Observation.wf_iff x).mp hx).1
    exact .inl ⟨rfl, by simp only [exec, execEncEncode, hx, if_true, this]⟩
  | false => exact .inr ⟨rfl, by simp only [exec, execEncEncode, hx, Bool.false_eq_true, if_false]⟩

/-- `DEC.DECODE` (R183). -/
theorem exec_decDecode (B : List Byte) (s : State) :
    (∃ x k, decodeRecord Config.hw.sectDigit B = .ok (x, k) ∧
      exec (.decDecode B) s = .next (s.succeed (.decoded x k))) ∨
    (∃ c, decodeRecord Config.hw.sectDigit B = .error c ∧ exec (.decDecode B) s = .next (s.raise c)) := by
  cases hd : decodeRecord Config.hw.sectDigit B with
  | ok p => exact .inl ⟨p.1, p.2, rfl, by simp only [exec, execDecDecode, hd]⟩
  | error c => exact .inr ⟨c, rfl, by simp only [exec, execDecDecode, hd]⟩

/-- `RS.OPEN` (R213). -/
theorem exec_rsOpen (b : List Byte) (s : State) :
    exec (.rsOpen b) s = .next ({ s with rs := .opened b s.free, free := s.free + 1 }.succeed .none) := rfl

/-- `RS.NEXT` (R214). -/
theorem exec_rsNext (s : State) :
    exec .rsNext s = .next ({ s with rs := (s.rs.next Config.hw).1 }.succeed (s.rs.next Config.hw).2) := rfl

theorem hw_chunk : 84 ≤ Config.hw.chunk := by decide

end Sys2Proof.Machine
end

