-- ==== Sys2Proof/Laws/PerInstr.lean ====
section
/-! SUPPORT. The statements made of every operation as syntax, one lemma per constructor. -/

namespace Sys2Proof.Laws.EncodedWord

/-- The command word of a well-formed operation carries the operation code of its row (R99) and is not reserved
(R100). -/
def Statement (i : Instr) : Prop :=
  i.wf = true → (encode i).word.op = i.opcode ∧ legalWord (encode i).word = true

theorem bwInit : Statement .bwInit := fun _ => ⟨rfl, rfl⟩

theorem bwWrite (value : Int) (n : Nat) : Statement (.bwWrite value n) := by
  intro h
  have hmax : Config.hw.wmax = 8 := rfl
  simp only [Instr.wf, Bool.and_eq_true, decide_eq_true_eq, hmax] at h
  obtain ⟨k1, k2, k3⟩ := commandWord_fields (op := 2) (n := n) (v := value.toNat) (by omega) (by omega) (by omega)
  refine ⟨k1, ?_⟩
  rw [legalWord_iff, encode, k1, k2, k3]
  omega

theorem bwFlush : Statement .bwFlush := fun _ => ⟨rfl, rfl⟩

theorem brLoad (bytes : List Byte) : Statement (.brLoad bytes) :=
  fun _ => (by decide : (commandWord 4 0 0).op = 4 ∧ legalWord (commandWord 4 0 0) = true)

theorem brRead (n : Nat) : Statement (.brRead n) := by
  intro h
  have hmax : Config.hw.wmax = 8 := rfl
  simp only [Instr.wf, decide_eq_true_eq, hmax] at h
  obtain ⟨k1, k2, k3⟩ := commandWord_fields (op := 5) (n := n) (v := 0) (by omega) (by omega) (by omega)
  refine ⟨k1, ?_⟩
  rw [legalWord_iff, encode, k1, k2, k3]
  omega

theorem encEncode (x : Observation) : Statement (.encEncode x) :=
  fun _ => (by decide : (commandWord 6 0 0).op = 6 ∧ legalWord (commandWord 6 0 0) = true)

theorem decDecode (bytes : List Byte) : Statement (.decDecode bytes) :=
  fun _ => (by decide : (commandWord 7 0 0).op = 7 ∧ legalWord (commandWord 7 0 0) = true)

theorem rsOpen (bytes : List Byte) : Statement (.rsOpen bytes) :=
  fun _ => (by decide : (commandWord 8 0 0).op = 8 ∧ legalWord (commandWord 8 0 0) = true)

theorem rsNext : Statement .rsNext := fun _ => ⟨rfl, rfl⟩

end Sys2Proof.Laws.EncodedWord
end

