-- ==== Sys2Proof/Laws/Run.lean ====
section
/-! SUPPORT. Operations one after another (R60). -/

namespace Sys2Proof.Machine

/-- A run in two parts. -/
theorem runOps_append {is js : List Instr} {s t : State} {r : List (Option Response)}
    (h : runOps is s = .next (t, r)) :
    runOps (is ++ js) s = match runOps js t with
      | .next (u, r') => .next (u, r ++ r')
      | .fault f => .fault f
      | .refused x => .refused x := by
  induction is generalizing s r with
  | nil => cases h; rw [List.nil_append]; generalize runOps js _ = o; cases o <;> rfl
  | cons i is ih =>
    rw [runOps] at h
    rw [List.cons_append, runOps]
    cases he : exec i s with
    | fault f => rw [he] at h; cases h
    | refused x => rw [he] at h; cases h
    | next s1 =>
      rw [he] at h
      simp only at h ⊢
      cases hr : runOps is s1 with
      | fault f => rw [hr] at h; cases h
      | refused x => rw [hr] at h; cases h
      | next p =>
        rw [hr] at h
        cases h
        rw [ih hr]
        generalize runOps js _ = o; cases o <;> rfl

theorem runOps_single {i : Instr} {s t : State} (h : exec i s = .next t) :
    runOps [i] s = .next (t, [t.response]) := by
  simp only [runOps, h]

/-- Writes on an open writer, one after another (R112). -/
theorem runOps_writes (ws : List (Int × Nat)) {s : State} (ho : s.bw.closed = false)
    (hr : s.response = some (.ok .none)) :
    runOps (writeOps ws) s = .next ({ s with bw := BitWriter.putBits (writtenBits ws) s.bw },
      ws.map fun _ => some (.ok .none)) := by
  induction ws generalizing s with
  | nil => rfl
  | cons p ws ih =>
    obtain ⟨v, n⟩ := p
    rcases exec_bwWrite v n s with ⟨hc, _⟩ | ⟨_, he⟩
    · rw [ho] at hc; cases hc
    · have := ih (s := State.succeed { s with bw := BitWriter.putBits (valueBits v n) s.bw } .none)
        (by rw [State.succeed_bw, BitWriter.putBits_closed, ho]) rfl
      rw [writeOps, List.map_cons, runOps, he]
      simp only
      rw [writeOps] at this
      rw [this, writtenBits_cons, BitWriter.putBits_append]
      obtain ⟨bw, br, rs, p, r, f⟩ := s
      cases hr
      rfl

end Sys2Proof.Machine
end

