-- ==== Sys2Proof/Tests/Slice0.lean ====
section
/-! SUPPORT. Tests. Expected results are those of `spec/95_test_vectors.md` and of the rules' worked examples; the last
part shows, for every statement with hypotheses, values that meet them. -/

namespace Sys2Proof.Tests

open Sys2Proof.Machine

/-! ### Well-formedness: each check refuses an ill-formed operation -/

theorem test_wf_count : Instr.wf (.bwWrite 1 9) = false ∧ Instr.wf (.bwWrite 1 8) = true := by decide
theorem test_wf_value_high : Instr.wf (.bwWrite 256 8) = false ∧ Instr.wf (.bwWrite 255 8) = true := by decide
theorem test_wf_value_low : Instr.wf (.bwWrite (-1) 8) = false ∧ Instr.wf (.bwWrite 0 8) = true := by decide
theorem test_wf_read_count : Instr.wf (.brRead 9) = false ∧ Instr.wf (.brRead 8) = true := by decide
theorem test_wf_sectors : Instr.wf (.encEncode { sectors := List.replicate 16 0x2F }) = false ∧
    Instr.wf (.encEncode { sectors := List.replicate 15 0x2F }) = true := by decide
theorem test_wf_remark : Instr.wf (.encEncode { remark := List.replicate 61 0 }) = false ∧
    Instr.wf (.encEncode { remark := List.replicate 60 0 }) = true := by decide

/-! ### Decoding: one word of every row, written out from R98 and R99 -/

theorem test_decode_bwInit : decode ⟨0b0001_0000_00000000, .none⟩ = .ok .bwInit := by decide
theorem test_decode_bwWrite : decode ⟨0b0010_0111_00101100, .none⟩ = .ok (.bwWrite 44 7) := by decide
theorem test_decode_bwFlush : decode ⟨0b0011_0000_00000000, .none⟩ = .ok .bwFlush := by decide
theorem test_decode_brLoad : decode ⟨0b0100_0000_00000000, .bytes [0xFD]⟩ = .ok (.brLoad [0xFD]) := by decide
theorem test_decode_brRead : decode ⟨0b0101_0110_00000000, .none⟩ = .ok (.brRead 6) := by decide
theorem test_decode_encEncode :
    decode ⟨0b0110_0000_00000000, .observation { kk := 160 }⟩ = .ok (.encEncode { kk := 160 }) := by decide
theorem test_decode_decDecode : decode ⟨0b0111_0000_00000000, .bytes [0xEE]⟩ = .ok (.decDecode [0xEE]) := by decide
theorem test_decode_rsOpen : decode ⟨0b1000_0000_00000000, .bytes []⟩ = .ok (.rsOpen []) := by decide
theorem test_decode_rsNext : decode ⟨0b1001_0000_00000000, .none⟩ = .ok .rsNext := by decide
theorem test_decode_reserved :
    [0x0000, 0xA000, 0xF000, 0x2901, 0x5900, 0x5801, 0x1100, 0x1001, 0x9001].map (decodeTableWord 16) =
      List.replicate 9 none := by decide
theorem test_decode_payload : decode ⟨0x4000, .none⟩ = .error (.payloadMismatch 0x4000) := by decide

/-! ### One step of each operation -/

/-- The response of a next state. -/
def answer : Host.Outcome State Fault Refusal → Option Response
  | .next t => t.response
  | .fault _ => none
  | .refused _ => none

/-- The next state, the reset state where there is none. -/
def after : Host.Outcome State Fault Refusal → State
  | .next t => t
  | .fault _ => .reset
  | .refused _ => .reset

/-- The reset state with this writer. -/
def withWriter (buf : List Byte) (acc : Byte) (cnt : Nat) (closed : Bool) : State :=
  { State.reset with bw := { buf := buf, acc := acc, cnt := cnt, closed := closed } }

/-- The reset state with this reader. -/
def withReader (src : List Byte) (cur : Nat) : State := { State.reset with br := { src := src, cur := cur } }

/-- The reset state with a stream over these bytes. -/
def withStream (src : List Byte) (off : Nat) : State :=
  { State.reset with rs := { State.reset.rs with src := src, off := off } }

/-- The Observation P of `spec/95_test_vectors.md`. -/
def obsP : Observation := { ver := 1, kk := 1, obj := 1, month := 1, day := 1, halo := 1, region := 1 }

/-- The fixed region of P's record. -/
def fixedP : List Byte :=
  [0x01, 0x81, 0x00, 0x22, 0x00, 0x00, 0x00, 0x00, 0x10, 0x00, 0x00, 0x40, 0x00, 0x00, 0x00, 0x00, 0x00, 0x00, 0x00,
    0x00, 0x00, 0x00]

/-- `ENC.ENCODE P`. -/
def recP : List Byte := fixedP ++ [0x00]

/-- The fixed region of the record of P with kk = 160 (S2). -/
def fixedE : List Byte :=
  [0x01, 0x80, 0x80, 0x02, 0x22, 0x00, 0x00, 0x00, 0x00, 0x10, 0x00, 0x00, 0x40, 0x00, 0x00, 0x00, 0x00, 0x00, 0x00,
    0x00, 0x00, 0x00, 0x00]

/-- The record of P with kk = 160. -/
def recE : List Byte := fixedE ++ [0x00]

/-- The instance with the reference digit codes (R92), for the vectors marked `[ref]`. -/
def ref : Config := { Config.hw with sectDigit := sectDigitRef }

/-- The Observation of R159. -/
def obsX : Observation :=
  { ver := 7, kk := 44, obj := 1, year := 98, month := 12, day := 31, site := 2, hour := 23, minute := 59, dorg := 255,
    dur := 10, cloud := 10, cirrus := 5, lowcloud := 9, halo := 99, bright := -1, color := -1, compl := -1, front := -1,
    precip := -1, region := 39, upang := -1, loang := -1, sectors := [0x31, 0x2D, 0x32, 0x2F, 0x38],
    remark := [0x48, 0x69] }

/-- The record of R159. -/
def recX : List Byte :=
  [0x07, 0xAC, 0x88, 0xF9, 0x7B, 0xF7, 0x29, 0xB4, 0x39, 0xFE, 0xFF, 0xFF, 0xE9, 0xFF, 0x0F, 0x95, 0x44, 0x00, 0x00,
    0x00, 0x00, 0x00, 0x02, 0x48, 0x69]

/-- R111: unflushed bits are discarded. -/
theorem test_bwInit : after (exec .bwInit (withWriter [0xFD] 5 3 true)) =
    { State.reset with response := some (.ok .none) } := by decide

/-- R112's example: a write across a byte boundary. -/
theorem test_bwWrite_boundary :
    (after (exec (.bwWrite 0xFF 6) (withWriter [] 5 3 false))).bw = ⟨[0xFD], 1, 1, false⟩ := by decide

/-- V-BW: 200 mod 128 = 72, and the low bits of a negative value (R112). -/
theorem test_bwWrite_truncates : (after (exec (.bwWrite 200 7) State.reset)).bw = ⟨[], 72, 7, false⟩ ∧
    (after (exec (.bwWrite (-1) 7) State.reset)).bw = ⟨[], 127, 7, false⟩ := by decide

/-- R113's example. -/
theorem test_bwFlush : answer (exec .bwFlush (withWriter [0xFD] 1 1 false)) = some (.ok (.bytes [0xFD, 0x01])) := by
  decide

/-- V-BW: a second flush raises `WriterClosed`. -/
theorem test_bwFlush_closed :
    answer (exec .bwFlush (withWriter [0xFD, 0x01] 0 0 true)) = some (.condition .writerClosed) := by decide

/-- R132: the cursor of the previous slice is forgotten. -/
theorem test_brLoad : (after (exec (.brLoad [0xFD, 0x01]) (withReader [0xAB] 7))).br = ⟨[0xFD, 0x01], 0⟩ := by decide

/-- V-BR: a read across a byte boundary. -/
theorem test_brRead : after (exec (.brRead 6) (withReader [0xFD, 0x01] 3)) =
    { withReader [0xFD, 0x01] 9 with response := some (.ok (.value 6 63)) } := by decide

/-- V-BR: the read past the end. -/
theorem test_brRead_end : after (exec (.brRead 1) (withReader [0xFD, 0x01] 16)) =
    { withReader [0xFD, 0x01] 16 with response := some (.condition (.unexpectedEndOfData 16 1 2)) } := by decide

/-- S2: the escape record of P with kk = 160. -/
theorem test_encEncode_escape :
    answer (exec (.encEncode { obsP with kk := 160 }) State.reset) = some (.ok (.bytes recE)) := by decide +kernel

/-- R159 `[ref]`. -/
theorem test_encEncode_example : (encodeRecord ref obsX).toOption = some recX := by decide +kernel

/-- V-DEC: the escape layout with `kk8 = 5` is accepted. -/
theorem test_decDecode_escape :
    answer (exec (.decDecode ([0x01, 0x80, 0x14, 0x00, 0x22] ++ recE.drop 5)) State.reset) =
      some (.ok (.decoded { obsP with kk := 5 } 24)) := by decide +kernel

/-- R195 `[ref]`, and V-DEC: `sect[14] = 13` has no character. -/
theorem test_decDecode_example : (decodeRecord sectDigitRef recX).toOption = some (obsX, 25) ∧
    (match decodeRecord sectDigitRef (recX.set 21 0x68) with
      | .error e => some e
      | .ok _ => none) = some (.malformedField 14 13) := by decide +kernel

/-- R213: legal in a terminal state. -/
theorem test_rsOpen : (after (exec (.rsOpen recP) { withStream [] 0 with rs := ⟨[], 0, .ended, 0, .success⟩ })).rs.status =
    .running ∧ (after (exec (.rsOpen recP) (withStream recE 24))).rs.off = 0 := by decide

/-- R214: an item moves the cursor by the record's length. -/
theorem test_rsNext_item : answer (exec .rsNext (withStream (recE ++ recP) 24)) = some (.ok (.item obsP)) ∧
    (after (exec .rsNext (withStream (recE ++ recP) 24))).rs.off = 47 := by decide +kernel

/-- V-RS: 21 bytes left end the stream; 22 bytes of an escape record are an error. -/
theorem test_rsNext_terminal : answer (exec .rsNext (withStream (recP ++ fixedP.take 21) 23)) = some (.ok .streamEnd) ∧
    answer (exec .rsNext (withStream (recP ++ fixedE.take 22) 23)) =
      some (.ok (.streamError 23 .unexpectedEndOfData)) := by decide +kernel

/-- The port: a word of the table runs as the first operation after reset, a reserved word raises `IllegalCommand`. -/
theorem test_step_first : answer (step (State.reset.withFetchWord 16 0x5100)) =
      some (.condition (.unexpectedEndOfData 0 1 0)) ∧
    answer (step (State.reset.withFetchWord 16 0x5900)) = some (.condition (.illegalCommand 0x5900)) := by
  decide +kernel

/-- R34: the sixty-first byte goes, trailing spaces go. -/
theorem test_mkObs : (mkObs obsP [0x20, 0x2D, 0x20] (List.replicate 61 0x41)) =
    some { obsP with sectors := [0x20, 0x2D], remark := List.replicate 60 0x41 } := by decide

/-- V-BW: `BW_CAP = 1`. -/
theorem test_writerFull :
    (match BitWriter.write { Config.hw with bwCap := some 1 } 1 1 ⟨[0xFF], 0, 0, false⟩ with
      | .error e => some e
      | .ok _ => none) = some (.writerFull 8 1) := by decide

/-! ### The hypotheses of the statements are met -/

theorem inv_reset : State.reset.Inv :=
  ⟨BitWriter.reset_inv, ⟨by decide⟩, ⟨by decide, nofun, nofun⟩, rfl⟩

theorem inv_writer : BitWriter.Inv ⟨[0xFF], 5, 3, false⟩ := ⟨by decide, by decide, nofun⟩

theorem inv_closed : BitWriter.Inv ⟨[0xFF], 0, 0, true⟩ := ⟨by decide, by decide, fun _ => ⟨rfl, rfl⟩⟩

/-- A state with this event pending. -/
def pendingReset : State := { withWriter [0xFF] 5 3 false with pending := [.reset] }

theorem witness_ResetEqualsTheThreeInitialisingOperations :
    [Instr.rsOpen [], .bwInit, .brLoad []].Perm [.bwInit, .brLoad [], .rsOpen []] ∧
      pendingReset.pending = .reset :: [] := by decide

theorem witness_StepRunsTheDecodedOperation :
    (State.reset.withFetchWord 16 0x2807).pending = .command ⟨0x2807, .none⟩ :: [] ∧
      decode ⟨0x2807, .none⟩ = .ok (.bwWrite 7 8) ∧ State.reset.pending = [] := by decide

/-- Each clause of `reserved` at its boundary, and words beside the boundary that are not reserved. -/
theorem witness_ReservedWordsRaiseIllegalCommand :
    (State.reset.withFetchWord 16 0x2900).pending = .command ⟨0x2900, .none⟩ :: [] ∧
      [0x0000, 0xA000, 0x2900, 0x5900, 0x1100, 0x1001, 0x5001].map (fun w => decode ⟨w, .none⟩) =
        [0x0000, 0xA000, 0x2900, 0x5900, 0x1100, 0x1001, 0x5001].map (fun w => .error (.illegalCommand w)) ∧
      [0x9000, 0x28FF, 0x5800].map (fun w => decode ⟨w, .none⟩) =
        [.ok .rsNext, .ok (.bwWrite 255 8), .ok (.brRead 8)] := by decide

theorem witness_DecodeInvertsEncode : Instr.wf (.bwWrite 255 8) = true ∧ Instr.wf (.brRead 0) = true := by decide

theorem witness_EncodeInvertsDecode : decode ⟨0x28FF, .none⟩ = .ok (.bwWrite 255 8) := by decide

theorem witness_StepKeepsTheInvariant : (State.reset.withFetchWord 16 0x28FF).Inv ∧
    ∃ t, step (State.reset.withFetchWord 16 0x28FF) = .next t :=
  ⟨⟨inv_reset.bw, inv_reset.br, inv_reset.rs, rfl⟩, _, rfl⟩

theorem witness_EveryOperationIsDefinedInEveryState : Instr.wf (.bwWrite 0 8) = true ∧ Instr.wf .rsNext = true := by
  decide

theorem witness_ConditionsArePrecise :
    exec .bwFlush (withWriter [0xFF] 0 0 true) = .next ((withWriter [0xFF] 0 0 true).raise .writerClosed) ∧
      takeCommand ⟨0xF000, .none⟩ State.reset = .next (State.reset.raise (.illegalCommand 0xF000)) := ⟨rfl, rfl⟩

theorem witness_UnitsAreChangedOnlyByTheirOwnOperations :
    exec (.brRead 0) State.reset = .next (State.reset.succeed (.value 0 0)) ∧
      ∃ t, exec .rsNext State.reset = .next t := ⟨rfl, _, rfl⟩

theorem witness_ClosedFlagHasTwoWriters : ∃ t u, exec .bwFlush State.reset = .next t ∧ exec .bwInit t = .next u :=
  ⟨_, _, rfl, rfl⟩

/-- Each condition arises: one operation for each clause. -/
theorem witness_ConditionsComeFromTheirOperations :
    answer (exec (.bwWrite 1 1) (withWriter [] 0 0 true)) = some (.condition .writerClosed) ∧
      answer (exec .bwFlush (withWriter [] 0 0 true)) = some (.condition .writerClosed) ∧
      answer (exec (.brRead 1) State.reset) = some (.condition (.unexpectedEndOfData 0 1 0)) ∧
      answer (exec (.decDecode (fixedE.take 22)) State.reset) = some (.condition (.unexpectedEndOfData 175 4 22)) ∧
      answer (exec (.decDecode (fixedP.take 21)) State.reset) = some (.condition (.truncatedRecord 21)) ∧
      answer (exec (.decDecode fixedP) State.reset) = some (.condition (.malformedRemark 22 none 22)) := by
  decide +kernel

theorem witness_ClosedWriterStaysClosedUntilInit : (withWriter [0xFF] 0 0 true).bw.closed = true := rfl

theorem witness_BwWriteAppendsTheLowBits :
    (withWriter [0xFF] 5 3 false).bw.Inv ∧ (withWriter [0xFF] 5 3 false).bw.closed = false := ⟨inv_writer, rfl⟩

/-- Capacity 2: eleven bits written; five more fit exactly, six do not. -/
theorem witness_WriterFullExactlyPastTheCapacity :
    BitWriter.Inv ⟨[0xFF], 5, 3, false⟩ ∧ BitWriter.Inv ⟨[0xFF], 0, 0, true⟩ ∧
      (BitWriter.written ⟨[0xFF], 5, 3, false⟩ + 5 + 7) / 8 ≤ 2 ∧
      2 < (BitWriter.written ⟨[0xFF], 5, 3, false⟩ + 6 + 7) / 8 := ⟨inv_writer, inv_closed, by decide, by decide⟩

theorem witness_BwFlushReturnsThePackedStream :
    (withWriter [0xFF] 5 3 false).bw.Inv ∧ (withWriter [0xFF] 5 3 false).bw.closed = false ∧
      (withWriter [0xFF] 0 0 true).bw.Inv ∧ (withWriter [0xFF] 0 0 true).bw.closed = true :=
  ⟨inv_writer, rfl, inv_closed, rfl⟩

theorem witness_WritesThenFlushHaveTheClosedForm :
    State.reset.bw = { buf := [], acc := 0, cnt := 0, closed := false } := rfl

/-- The last bits of a slice, and one bit too many. -/
theorem witness_BrReadReturnsTheNextBits :
    (withReader [0xFD, 0x01] 9).br.cur + 7 ≤ 8 * (withReader [0xFD, 0x01] 9).br.src.length ∧
      8 * (withReader [0xFD, 0x01] 9).br.src.length < (withReader [0xFD, 0x01] 9).br.cur + 8 := by decide

theorem witness_BrReadJoins :
    (withReader [0xFD, 0x01] 9).br.cur + (3 + 4) ≤ 8 * (withReader [0xFD, 0x01] 9).br.src.length := by decide

theorem witness_ReaderInvertsWriter : 0 < 1 := by decide

theorem witness_FieldCodesReverse :
    FieldId.bright ≠ .kk ∧ FieldId.faithful .bright (-1) = true ∧ FieldId.faithful .dorg 255 = true ∧
      7 < 2 ^ FieldId.width .bright ∧ FieldId.bright ∈ sentinelFields := by decide

theorem witness_SectorCodesReverse :
    sectDigitRef.Admissible ∧ Config.hw.sectDigit.Admissible ∧ inAlphabet 0x39 = true ∧ inAlphabet 0x3A = false :=
  ⟨sectDigitRef_admissible, Config.hw_admissible, by decide, by decide⟩

theorem witness_ConstructionNormalises :
    (mkObs obsP [0x2D, 0x20] [0x41]).isSome = true ∧ mkObs obsP (List.replicate 16 0x2D) [] = none ∧
      (decodeRecord sectDigitRef recP).toOption = some (obsP, 23) := by decide +kernel

theorem witness_EncodeReturnsARecordOfTheStatedLength :
    Observation.wf { obsP with kk := 99 } = true ∧ (99 : Int) ≤ 99 ∧
      Observation.wf { obsP with kk := 100, sectors := List.replicate 15 0x2D, remark := List.replicate 60 0 } = true ∧
      (99 : Int) < 100 := by decide

theorem witness_EncodedFieldsStandAtTheirPositions :
    Observation.wf { obsP with kk := 160 } = true ∧
      ∃ t, exec (.encEncode { obsP with kk := 160 }) State.reset = .next t ∧ t.response = some (.ok (.bytes recE)) := by
  refine ⟨by decide, _, rfl, ?_⟩
  decide +kernel

theorem witness_EncodeIsInjectiveOnTheFaithfulSet :
    sectDigitRef.Admissible ∧ ref.sectDigit = sectDigitRef ∧ obsX.faithful = true ∧
      (encodeRecord ref obsX).toOption = some recX := ⟨sectDigitRef_admissible, rfl, by decide, by decide +kernel⟩

/-- A record of each format, whole and with the longest remark. -/
theorem witness_DecodeReadsTheFieldsAtTheirPositions :
    [recP, recE, fixedP ++ [60] ++ List.replicate 60 0x41].all (fun B =>
      let esc := (byteAt B 1).toNat % 128 == 0
      let F := if esc then 23 else 22
      let L := (byteAt B F).toNat
      F + 1 + L ≤ B.length && L ≤ 60 &&
        (List.range 15).all fun i => sectChar Config.hw.sectDigit (sectorCode esc B i) == some 0x20) = true ∧
      (List.replicate 15 (0x20 : Byte)).length = 15 := by decide +kernel

/-- A buffer for each clause, at the boundary lengths. -/
theorem witness_DecodeConditionsInTheirOrder :
    (fixedP.take 21).length < 22 ∧
      ((fixedE.take 22).length = 22 ∧ (byteAt (fixedE.take 22) 1).toNat % 128 = 0) ∧
      (∃ c : Fin 16, sectChar Config.hw.sectDigit c = none ∧
        22 ≤ (fixedP.set 14 (BitVec.ofNat 8 (8 * c))).length ∧
        (byteAt (fixedP.set 14 (BitVec.ofNat 8 (8 * c))) 1).toNat % 128 ≠ 0 ∧
        sectorCode false (fixedP.set 14 (BitVec.ofNat 8 (8 * c))) 0 = c) ∧
      ((List.range 15).all fun i => (sectChar Config.hw.sectDigit (sectorCode false fixedP i)).isSome) = true ∧
      22 ≤ fixedP.length ∧ fixedP.length < 22 + 1 ∧
      60 < (byteAt (fixedP ++ [61]) 22).toNat ∧ (fixedP ++ [1]).length < 22 + 1 + (byteAt (fixedP ++ [1]) 22).toNat := by
  refine ⟨by decide, by decide, ?_, by decide +kernel, by decide, by decide, by decide, by decide⟩
  obtain ⟨c, hc⟩ := exists_sectChar_none Config.hw_admissible
  have h : ∀ c : Fin 16, 22 ≤ (fixedP.set 14 (BitVec.ofNat 8 (8 * c))).length ∧
      (byteAt (fixedP.set 14 (BitVec.ofNat 8 (8 * c))) 1).toNat % 128 ≠ 0 ∧
      sectorCode false (fixedP.set 14 (BitVec.ofNat 8 (8 * c))) 0 = c := by decide +kernel
  exact ⟨c, hc, h c⟩

theorem witness_CursorAndRawByteAgreeOnTheRegionSize :
    (22 ≤ recP.length ∧ ((readFixedRegion (.load recP)).toOption.map fun p => p.2.2.cur) = some 175) ∧
      (22 ≤ recE.length ∧ ((readFixedRegion (.load recE)).toOption.map fun p => p.2.2.cur) = some 183) := by
  decide +kernel

theorem witness_DecodeInvertsEncodeOnTheFaithfulSet :
    ref.sectDigit.Admissible ∧ obsX.faithful = true ∧ (encodeRecord ref obsX).toOption = some recX :=
  ⟨sectDigitRef_admissible, by decide, by decide +kernel⟩

theorem witness_RoundTripGivesTheNormalForm :
    ref.sectDigit.Admissible ∧ ref.bwCap = none ∧ Observation.wf { obsP with kk := 256 } = true ∧ (256 : Int) > 99 ∧
      Observation.wf { obsP with kk := -1 } = true ∧ lowBits 7 (-1) ≠ 0 :=
  ⟨sectDigitRef_admissible, rfl, by decide, by decide, by decide, by decide⟩

theorem witness_DecodedValuesStayInRange :
    (decodeRecord sectDigitRef recP).toOption = some (obsP, 23) ∧
      (decodeRecord sectDigitRef recE).toOption = some ({ obsP with kk := 160 }, 24) := by decide +kernel

theorem witness_DecodeIgnoresWhatFollowsTheRecord :
    ∃ t, exec (.decDecode (recP ++ [0xEE])) State.reset = .next t ∧ t.response = some (.ok (.decoded obsP 23)) := by
  rcases exec_decDecode (recP ++ [0xEE]) State.reset with ⟨x, k, hd, he⟩ | ⟨c, hd, he⟩
  · have : (decodeRecord Config.hw.sectDigit (recP ++ [0xEE])).toOption = some (obsP, 23) := by decide +kernel
    rw [hd] at this
    cases this
    exact ⟨_, he, rfl⟩
  · have : (decodeRecord Config.hw.sectDigit (recP ++ [0xEE])).toOption = some (obsP, 23) := by decide +kernel
    rw [hd] at this
    cases this

/-- A record of each format with a remark of one byte; every length of the clauses is at most theirs. -/
theorem witness_DecodeOutcomeByBufferLength :
    ref.sectDigit.Admissible ∧ Observation.wf { obsP with remark := [0x41] } = true ∧ lowBits 7 obsP.kk ≠ 0 ∧
      (encodeRecord ref { obsP with remark := [0x41] }).toOption = some (fixedP ++ [1, 0x41]) ∧
      24 ≤ (fixedP ++ [1, 0x41] ++ []).length ∧
      (encodeRecord ref { obsP with kk := 160, remark := [0x41] }).toOption = some (fixedE ++ [1, 0x41]) ∧
      25 ≤ (fixedE ++ [1, 0x41] ++ []).length :=
  ⟨sectDigitRef_admissible, by decide, by decide, by decide +kernel, by decide, by decide +kernel, by decide⟩

theorem witness_ObserverIdZeroMisframesTheRecord :
    Observation.wf { obsP with kk := 0 } = true ∧ (0 : Int) ≤ 99 ∧ lowBits 7 0 = 0 ∧
      (encodeRecord ref { obsP with kk := 0 }).toOption = some (recP.set 1 0x80) ∧
      ((decodeRecord ref.sectDigit (recP.set 1 0x80 ++ [0])).toOption.map Prod.snd) = some 24 := by decide +kernel

/-- A state for each of the three answers. -/
theorem witness_RsNextAnswersByTheRestOfTheSource :
    (withStream recP 0).rs.status = .running ∧ (withStream recP 23).rs.off ≤ (withStream recP 23).rs.src.length ∧
      (decodeRecord Config.hw.sectDigit ((withStream recP 0).rs.src.drop 0)).toOption = some (obsP, 23) ∧
      (match decodeRecord Config.hw.sectDigit ((withStream recP 2).rs.src.drop 2) with
        | .error e => some e
        | .ok _ => none) = some (.truncatedRecord 21) ∧
      (match decodeRecord Config.hw.sectDigit ((withStream fixedP 0).rs.src.drop 0) with
        | .error e => some e
        | .ok _ => none) = some (.malformedRemark 22 none 22) := by decide +kernel

theorem witness_TerminalStatesAbsorb :
    (⟨[], 0, .ended, 0, .success⟩ : RecordStream).status ≠ .running ∧
      (⟨fixedP, 0, .error, 0, .malformedRemark⟩ : RecordStream).status ≠ .running ∧
      (∃ t, step { State.reset with rs := ⟨[], 0, .ended, 0, .success⟩, pending := [.command ⟨0x9000, .none⟩] } =
        .next t) ∧
      ∀ b, decode ⟨0x9000, .none⟩ ≠ .ok (.rsOpen b) :=
  ⟨by decide, by decide, ⟨_, rfl⟩, fun _ h => by cases h⟩

theorem witness_StreamOfRecordsGivesThemInOrder :
    84 ≤ ref.chunk ∧ ref.sectDigit.Admissible ∧ (∀ x ∈ [obsP, obsX], x.faithful = true) ∧
      [obsP, obsX].map (fun x => (encodeRecord ref x).toOption) = [recP, recX].map some ∧
      (List.replicate 21 (0xEE : Byte)).length ≤ 21 :=
  ⟨by decide, sectDigitRef_admissible, by decide, by decide +kernel, by decide⟩

theorem witness_CutFinalRecordIsEndOrErrorByItsLength :
    84 ≤ ref.chunk ∧ ref.sectDigit.Admissible ∧ (∀ x ∈ [obsP], x.faithful = true) ∧
      [obsP].map (fun x => (encodeRecord ref x).toOption) = [recP].map some ∧ obsX.wf = true ∧
      lowBits 7 obsX.kk ≠ 0 ∧ (encodeRecord ref obsX).toOption = some recX ∧ 21 < recX.length ∧ 22 < recX.length :=
  ⟨by decide, sectDigitRef_admissible, by decide, by decide +kernel, by decide, by decide, by decide +kernel, by decide,
    by decide⟩

theorem witness_EveryStreamEnds : 84 ≤ ref.chunk ∧ 84 ≤ Config.hw.chunk := by decide

theorem witness_ChunkSizeIsUnobservable : 84 ≤ Config.hw.chunk ∧ 84 ≤ { Config.hw with chunk := 84 }.chunk := by decide

end Sys2Proof.Tests
end

section

/-! ### The derived sizes (R9): the two bit counts and the two bounds on a record's length -/

namespace Sys2Proof.Machine

theorem bitsNormal_eq : bitsNormal = 175 := by decide

theorem bitsEscape_eq : bitsEscape = 183 := by rw [bitsEscape, bitsNormal_eq, escapeWidth]

theorem recMin_eq : recMin = 23 := by rw [recMin, fixedNormal_eq]

theorem recMax_eq : recMax = 84 := by rw [recMax, fixedEscape_eq, remarkMax]

/-- Settles O28: each formula is the definition of its size, and each value is computed from the width table. -/
theorem derivedSizesHaveTheirValues : Obligations.DerivedSizesHaveTheirValues :=
  ⟨bitsNormal_eq, rfl, bitsEscape_eq, rfl, fixedNormal_eq, rfl, fixedEscape_eq, rfl, recMin_eq, rfl, recMax_eq⟩

end Sys2Proof.Machine
end

section

/-! ### What an operation that completes has done: one case per answer of each operation, for the invariant and the
frame statements -/

namespace Sys2Proof.Machine

/-- The next states of the nine operations from `s` (R99, R230), each with the test of its rule that chose it. -/
inductive Completes (s : State) : Instr → State → Prop
  | bwInit : Completes s .bwInit ({ s with bw := .reset }.succeed .none)
  | bwWrite (v : Int) (n : Nat) (isOpen : s.bw.closed = false) :
      Completes s (.bwWrite v n) ({ s with bw := BitWriter.putBits (valueBits v n) s.bw }.succeed .none)
  | bwWriteClosed (v : Int) (n : Nat) (isClosed : s.bw.closed = true) :
      Completes s (.bwWrite v n) (s.raise .writerClosed)
  | bwFlush (w : BitWriter) (isOpen : s.bw.closed = false) (flushed : s.bw.flush = .ok w) (closes : w.closed = true) :
      Completes s .bwFlush ({ s with bw := w }.succeed (.bytes w.buf))
  | bwFlushClosed (isClosed : s.bw.closed = true) : Completes s .bwFlush (s.raise .writerClosed)
  | brLoad (b : List Byte) : Completes s (.brLoad b) ({ s with br := .load b }.succeed .none)
  | brRead (n : Nat) (fits : s.br.cur + n ≤ 8 * s.br.src.length) :
      Completes s (.brRead n)
        ({ s with br := { s.br with cur := s.br.cur + n } }.succeed (.value n (codeAt s.br.src s.br.cur n)))
  | brReadPastEnd (n : Nat) (short : 8 * s.br.src.length < s.br.cur + n) :
      Completes s (.brRead n) (s.raise (.unexpectedEndOfData s.br.cur n s.br.src.length))
  | encEncode (x : Observation) (isOperand : x.wf = true) :
      Completes s (.encEncode x) (s.succeed (.bytes (recordOf Config.hw.sectDigit x)))
  | decDecode (B : List Byte) (x : Observation) (k : Nat) (decoded : decodeRecord Config.hw.sectDigit B = .ok (x, k)) :
      Completes s (.decDecode B) (s.succeed (.decoded x k))
  | decDecodeFails (B : List Byte) (c : Condition) (failed : decodeRecord Config.hw.sectDigit B = .error c) :
      Completes s (.decDecode B) (s.raise c)
  | rsOpen (b : List Byte) :
      Completes s (.rsOpen b) ({ s with rs := .opened b s.free, free := s.free + 1 }.succeed .none)
  | rsNext :
      Completes s .rsNext ({ s with rs := (s.rs.next Config.hw).1 }.succeed (s.rs.next Config.hw).2)

theorem exec_completes {i : Instr} {s t : State} (h : exec i s = .next t) : Completes s i t := by
  cases i with
  | bwInit => cases h; exact .bwInit
  | bwWrite v n =>
    rcases exec_bwWrite v n s with ⟨hc, he⟩ | ⟨ho, he⟩ <;> cases he.symm.trans h
    · exact .bwWriteClosed v n hc
    · exact .bwWrite v n ho
  | bwFlush =>
    rcases exec_bwFlush s with ⟨hc, he⟩ | ⟨ho, w, hw, hcl, he⟩ <;> cases he.symm.trans h
    · exact .bwFlushClosed hc
    · exact .bwFlush w ho hw hcl
  | brLoad b => cases h; exact .brLoad b
  | brRead n =>
    rcases exec_brRead n s with ⟨hn, he⟩ | ⟨hn, he⟩ <;> cases he.symm.trans h
    · exact .brRead n hn
    · exact .brReadPastEnd n hn
  | encEncode x =>
    rcases exec_encEncode x s with ⟨hx, he⟩ | ⟨-, he⟩ <;> cases he.symm.trans h
    exact .encEncode x hx
  | decDecode B =>
    rcases exec_decDecode B s with ⟨x, k, hd, he⟩ | ⟨c, hd, he⟩ <;> cases he.symm.trans h
    · exact .decDecode B x k hd
    · exact .decDecodeFails B c hd
  | rsOpen b => cases h; exact .rsOpen b
  | rsNext => cases h; exact .rsNext

/-- What a command at the port has done (R98, R240). -/
theorem takeCommand_cases {c : Command} {s t : State} (h : takeCommand c s = .next t) :
    (∃ i, decode c = .ok i ∧ exec i s = .next t) ∨
    (∃ w, decode c = .error (.illegalCommand w) ∧ t = s.raise (.illegalCommand w)) := by
  unfold takeCommand at h
  split at h
  case h_1 i hd => exact .inl ⟨i, hd, h⟩
  case h_2 w hd => cases h; exact .inr ⟨w, hd, rfl⟩
  case h_3 => cases h

/-- What a step has done: nothing, a command, or a reset (R251, R60, R261). -/
theorem step_cases {s t : State} (h : step s = .next t) :
    (s.pending = [] ∧ t = s) ∨
    (∃ c rest, s.pending = .command c :: rest ∧ takeCommand c { s with pending := rest } = .next t) ∨
    (∃ rest, s.pending = .reset :: rest ∧ t = State.takeReset { s with pending := rest }) := by
  unfold step at h
  split at h
  case h_1 hp => cases h; exact .inl ⟨hp, rfl⟩
  case h_2 c rest hp => exact .inr (.inl ⟨c, rest, hp, h⟩)
  case h_3 rest hp => cases h; exact .inr (.inr ⟨rest, hp, rfl⟩)

end Sys2Proof.Machine
end

section

/-! ### The register invariant is kept: unit by unit, then by operations, commands and steps (R21 to R23, R28) -/

namespace Sys2Proof.Machine

/-- The pad bits are written out, so a flushed writer holds no partial byte (R22, R113). -/
theorem BitWriter.flush_inv {w w' : BitWriter} (hw : w.Inv) (ho : w.closed = false) (h : w.flush = .ok w') :
    w'.Inv := by
  rw [BitWriter.flush_ok hw ho] at h
  cases h
  exact ⟨by simp, by simp, by simp⟩

theorem BitReader.load_inv (b : List Byte) : (BitReader.load b).Inv := ⟨Nat.zero_le _⟩

theorem RecordStream.inv_of_start {r : RecordStream} (hoff : r.off = 0) (hrun : r.status = .running) : r.Inv where
  off_le := by omega
  ended_stray h := by rw [hrun] at h; cases h
  error_at h := by rw [hrun] at h; cases h

theorem Result.inv_value (B : List Byte) (o n : Nat) : (Result.value n (codeAt B o n)).inv = true :=
  decide_eq_true (codeAt_lt B o n)

/-- R187 and R190 bound what a decode returns. -/
theorem Result.inv_decoded {sd : SectDigit} {B : List Byte} {x : Observation} {k : Nat}
    (h : decodeRecord sd B = .ok (x, k)) : (Result.decoded x k).inv = true := by
  obtain ⟨hmin, hmax, -⟩ := decodeRecord_bounds h
  simp [Result.inv, decodeRecord_normal h, recMin_eq, recMax_eq, hmin, hmax]

theorem State.Inv.withPending {s : State} (hs : s.Inv) (rest : List HostEvent) : State.Inv { s with pending := rest } :=
  ⟨hs.bw, hs.br, hs.rs, hs.response⟩

/-- A condition leaves the registers, and every condition is an admissible response (R241). -/
theorem State.Inv.raise {s : State} (hs : s.Inv) (c : Condition) : (s.raise c).Inv := ⟨hs.bw, hs.br, hs.rs, rfl⟩

theorem State.takeReset_inv (s : State) : s.takeReset.Inv :=
  ⟨BitWriter.reset_inv, BitReader.load_inv [], RecordStream.inv_of_start rfl rfl, rfl⟩

theorem exec_keeps_inv {i : Instr} {s t : State} (hs : s.Inv) (h : exec i s = .next t) : t.Inv := by
  cases exec_completes h with
  | bwInit => exact ⟨BitWriter.reset_inv, hs.br, hs.rs, rfl⟩
  | bwWrite v n ho => exact ⟨(BitWriter.putBits_spec hs.bw ho _).1, hs.br, hs.rs, rfl⟩
  | bwFlush w ho hw => exact ⟨BitWriter.flush_inv hs.bw ho hw, hs.br, hs.rs, rfl⟩
  | brLoad b => exact ⟨hs.bw, BitReader.load_inv b, hs.rs, rfl⟩
  | brRead n hn => exact ⟨hs.bw, ⟨hn⟩, hs.rs, Result.inv_value _ _ n⟩
  | encEncode => exact ⟨hs.bw, hs.br, hs.rs, rfl⟩
  | decDecode B x k hd => exact ⟨hs.bw, hs.br, hs.rs, Result.inv_decoded hd⟩
  | rsOpen b => exact ⟨hs.bw, hs.br, RecordStream.inv_of_start rfl rfl, rfl⟩
  | rsNext =>
    obtain ⟨hrs, hres⟩ := next_inv hw_chunk hs.rs
    exact ⟨hs.bw, hs.br, hrs, hres⟩
  | bwWriteClosed | bwFlushClosed | brReadPastEnd | decDecodeFails => exact hs.raise _

theorem takeCommand_keeps_inv {c : Command} {s t : State} (hs : s.Inv) (h : takeCommand c s = .next t) : t.Inv := by
  rcases takeCommand_cases h with ⟨i, -, he⟩ | ⟨w, -, rfl⟩
  · exact exec_keeps_inv hs he
  · exact hs.raise _

/-- Settles O8: an idle step changes nothing, a command runs an operation or raises a condition, and a reset restarts
every unit. -/
theorem stepKeepsTheInvariant : Obligations.StepKeepsTheInvariant := by
  intro s t hs h
  rcases step_cases h with ⟨-, rfl⟩ | ⟨c, rest, -, hc⟩ | ⟨rest, -, rfl⟩
  · exact hs
  · exact takeCommand_keeps_inv (hs.withPending rest) hc
  · exact State.takeReset_inv _

end Sys2Proof.Machine
end

section

/-! ### What each operation leaves unchanged (R25, R27, R29, R65) -/

namespace Sys2Proof.Machine

/-- `RS.NEXT` moves within its source and never replaces it (R65). -/
theorem RecordStream.next_src (cfg : Config) (r : RecordStream) : (r.next cfg).1.src = r.src := by
  by_cases hr : r.status = .running
  · simp only [RecordStream.next, hr]
    split
    · rfl
    · split <;> rfl
  · rw [next_terminal cfg hr]

variable {s t : State} {i : Instr}

theorem Completes.pending_eq (h : Completes s i t) : t.pending = s.pending := by cases h <;> rfl

theorem Completes.bw_frame (h : Completes s i t) :
    (i = .bwInit ∨ (∃ v n, i = .bwWrite v n) ∨ i = .bwFlush) ∨ t.bw = s.bw := by
  cases h with
  | bwInit => exact .inl (.inl rfl)
  | bwWrite v n | bwWriteClosed v n => exact .inl (.inr (.inl ⟨v, n, rfl⟩))
  | bwFlush | bwFlushClosed => exact .inl (.inr (.inr rfl))
  | _ => exact .inr rfl

theorem Completes.br_frame (h : Completes s i t) : ((∃ b, i = .brLoad b) ∨ ∃ n, i = .brRead n) ∨ t.br = s.br := by
  cases h with
  | brLoad b => exact .inl (.inl ⟨b, rfl⟩)
  | brRead n | brReadPastEnd n => exact .inl (.inr ⟨n, rfl⟩)
  | _ => exact .inr rfl

theorem Completes.brRead_src {n : Nat} (h : Completes s (.brRead n) t) : t.br.src = s.br.src := by cases h <;> rfl

theorem Completes.rs_frame (h : Completes s i t) : ((∃ b, i = .rsOpen b) ∨ i = .rsNext) ∨ t.rs = s.rs := by
  cases h with
  | rsOpen b => exact .inl (.inl ⟨b, rfl⟩)
  | rsNext => exact .inl (.inr rfl)
  | _ => exact .inr rfl

theorem Completes.rsNext_src (h : Completes s .rsNext t) : t.rs.src = s.rs.src := by
  cases h; exact RecordStream.next_src _ _

theorem Completes.free_frame (h : Completes s i t) : (∃ b, i = .rsOpen b) ∨ t.free = s.free := by
  cases h with
  | rsOpen b => exact .inl ⟨b, rfl⟩
  | _ => exact .inr rfl

end Sys2Proof.Machine

namespace Sys2Proof.Machine

/-- Settles O11: the frame of each unit over the answers of the nine operations. -/
theorem unitsAreChangedOnlyByTheirOwnOperations : Obligations.UnitsAreChangedOnlyByTheirOwnOperations := by
  intro i s t h
  have hc := exec_completes h
  refine ⟨hc.pending_eq, hc.bw_frame, hc.br_frame, ?_, hc.rs_frame, ?_, hc.free_frame⟩
  · rintro ⟨n, rfl⟩
    exact hc.brRead_src
  · rintro rfl
    exact hc.rsNext_src

/-- Settles O12: a flush closes an open writer and leaves a closed one closed, an initialisation opens it, putting bits
keeps the flag, and every other operation leaves the BitWriter alone. -/
theorem closedFlagHasTwoWriters : Obligations.ClosedFlagHasTwoWriters := by
  intro i s t h
  cases exec_completes h with
  | bwInit => rfl
  | bwFlush w ho hw closes => exact closes
  | bwFlushClosed isClosed => exact isClosed
  | bwWrite v n => exact BitWriter.putBits_closed _ _
  | _ => rfl

end Sys2Proof.Machine
end

section

/-! ### Construction of an Observation (R34) -/

namespace Sys2Proof.Machine

variable {x y : Observation} {sectorsIn remarkIn : List Byte}

theorem mkObs_eq_some_iff : mkObs x sectorsIn remarkIn = some y ↔
    (rtrim sectorsIn).length ≤ sectLen ∧ normalise x sectorsIn remarkIn = y := by
  simp [mkObs]

theorem mkObs_eq_none_iff : mkObs x sectorsIn remarkIn = none ↔ sectLen < (rtrim sectorsIn).length := by
  simp [mkObs]

theorem normalise_wf (hs : (rtrim sectorsIn).length ≤ sectLen) : (normalise x sectorsIn remarkIn).wf = true :=
  (Observation.wf_iff _).mpr ⟨hs, List.length_take_le ..⟩

theorem normalObservation_iff : normalObservation x = true ↔ x.wf = true ∧ x.sectors.getLast? ≠ some space := by
  simp [normalObservation]

/-- A normal Observation has nothing to trim and nothing to cut off. -/
theorem mkObs_of_normal (h : normalObservation x = true) : mkObs x x.sectors x.remark = some x := by
  obtain ⟨hwf, hlast⟩ := normalObservation_iff.mp h
  obtain ⟨hs, hr⟩ := (Observation.wf_iff x).mp hwf
  have htrim : rtrim x.sectors = x.sectors := rtrim_of_getLast? hlast
  have htake : x.remark.take remarkMax = x.remark := List.take_of_length_le hr
  rw [mkObs_eq_some_iff, normalise, htrim, htake]
  exact ⟨hs, rfl⟩

end Sys2Proof.Machine

namespace Sys2Proof.Machine

/-- Settles O27: a construction is the normalisation of its inputs where the trimmed sectors fit, and what the decoder
returns is normal already (R190). -/
theorem constructionNormalises : Obligations.ConstructionNormalises := by
  intro x sectorsIn remarkIn
  refine ⟨fun y hy => ?_, mkObs_eq_none_iff, fun sd B k hd => mkObs_of_normal (decodeRecord_normal hd)⟩
  obtain ⟨hs, rfl⟩ := mkObs_eq_some_iff.mp hy
  exact ⟨Observation.get_normalise x sectorsIn remarkIn, normalise_wf hs, rfl, rtrim_spaces sectorsIn,
    rtrim_getLast? sectorsIn⟩

end Sys2Proof.Machine
end

section

/-! ### Reset and the three initialising operations (R38, R260) -/

namespace Sys2Proof.Machine

theorem step_reset {s : State} {rest : List HostEvent} (h : s.pending = .reset :: rest) :
    step s = .next (State.takeReset { s with pending := rest }) := by
  rw [step, h]

/-- The six orders of three operations. -/
theorem orders_of_three {a b c : Instr} {ops : List Instr} (h : ops.Perm [a, b, c]) :
    ops = [a, b, c] ∨ ops = [b, a, c] ∨ ops = [b, c, a] ∨ ops = [a, c, b] ∨ ops = [c, a, b] ∨ ops = [c, b, a] := by
  simpa [List.permutations'] using List.mem_permutations'.mpr h

/-- Settles O2: each of the three operations sets its own unit to its reset values and completes from every state, so in
each of the six orders the last state has all of them. -/
theorem resetEqualsTheThreeInitialisingOperations : Obligations.ResetEqualsTheThreeInitialisingOperations := by
  refine ⟨⟨rfl, rfl, rfl, rfl, rfl⟩, fun s ops hops => ?_, fun s rest hp => ?_⟩
  · rcases orders_of_three hops with rfl | rfl | rfl | rfl | rfl | rfl <;>
      exact ⟨_, _, rfl, ⟨rfl, rfl, rfl, rfl, rfl⟩, rfl⟩
  · exact ⟨_, step_reset hp, ⟨rfl, rfl, rfl, rfl, rfl⟩, rfl⟩

end Sys2Proof.Machine
end

section

/-! ### Two reads joined (R52, R133) -/

namespace Sys2Proof.Machine

theorem exec_brRead_fits {s : State} {n : Nat} (h : s.br.cur + n ≤ 8 * s.br.src.length) :
    exec (.brRead n) s =
      .next ({ s with br := { s.br with cur := s.br.cur + n } }.succeed (.value n (codeAt s.br.src s.br.cur n))) := by
  rcases exec_brRead n s with ⟨-, he⟩ | ⟨hshort, -⟩
  · exact he
  · omega

theorem runOps_pair {i j : Instr} {s t u : State} (hi : exec i s = .next t) (hj : exec j t = .next u) :
    runOps [i, j] s = .next (u, [t.response, u.response]) := by
  simp only [runOps, hi, hj]

/-- Settles O23: the second read starts where the first one ended, so the joined code splits there (`codeAt_add`) and
both ways end at the same cursor. -/
theorem brReadJoins : Obligations.BrReadJoins := by
  intro s n1 n2 hfit
  have hfst := exec_brRead_fits (s := s) (n := n1) (by omega)
  have hsnd := exec_brRead_fits (n := n2)
    (s := State.succeed { s with br := { s.br with cur := s.br.cur + n1 } } (.value n1 (codeAt s.br.src s.br.cur n1)))
    (by simpa only [State.succeed_br, Nat.add_assoc] using hfit)
  refine ⟨_, _, _, _, runOps_pair hfst hsnd, exec_brRead_fits hfit, ?_, ?_⟩
  · rw [State.succeed_response, State.succeed_br, codeAt_add]
  · simp only [State.succeed_br, Nat.add_assoc]

end Sys2Proof.Machine
end

section

/-! ### A step takes the oldest pending command (R60, R98, R251) -/

namespace Sys2Proof.Machine

theorem step_idle {s : State} (h : s.pending = []) : step s = .next s := by
  rw [step, h]

theorem step_command {s : State} {c : Command} {rest : List HostEvent} (h : s.pending = .command c :: rest) :
    step s = takeCommand c { s with pending := rest } := by
  rw [step, h]

theorem takeCommand_of_decode {c : Command} {i : Instr} (h : decode c = .ok i) (s : State) :
    takeCommand c s = exec i s := by
  rw [takeCommand, h]

/-- Settles O4: the step hands the oldest command to the port, and the port runs what it decodes to. -/
theorem stepRunsTheDecodedOperation : Obligations.StepRunsTheDecodedOperation := by
  refine ⟨fun s c rest i hp hd => ?_, fun s hp => step_idle hp⟩
  rw [step_command hp, takeCommand_of_decode hd]

end Sys2Proof.Machine
end

section

/-! ### The command port decodes what is encoded, and encodes what is decoded (R98 to R100, R237) -/

namespace Sys2Proof

variable {w : CommandWord} {p : Payload} {c : Command} {i : Instr}

theorem decode_eq_ok_iff : decode c = .ok i ↔ legalWord c.word = true ∧ operation c.word c.payload = some i := by
  unfold decode
  cases legalWord c.word with
  | false => simp
  | true => cases operation c.word c.payload <;> simp

theorem decode_eq_illegalCommand_iff : decode c = .error (.illegalCommand c.word) ↔ legalWord c.word = false := by
  unfold decode
  cases legalWord c.word with
  | false => simp
  | true => cases operation c.word c.payload <;> simp

/-- An encoded word carries its row's operation code and is legal. -/
theorem encodedWord (i : Instr) : Laws.EncodedWord.Statement i := by
  cases i with
  | bwInit => exact Laws.EncodedWord.bwInit
  | bwWrite value n => exact Laws.EncodedWord.bwWrite value n
  | bwFlush => exact Laws.EncodedWord.bwFlush
  | brLoad b => exact Laws.EncodedWord.brLoad b
  | brRead n => exact Laws.EncodedWord.brRead n
  | encEncode x => exact Laws.EncodedWord.encEncode x
  | decDecode b => exact Laws.EncodedWord.decDecode b
  | rsOpen b => exact Laws.EncodedWord.rsOpen b
  | rsNext => exact Laws.EncodedWord.rsNext

theorem Instr.wf_bwWrite_iff {value : Int} {n : Nat} :
    Instr.wf (.bwWrite value n) = true ↔ (0 ≤ value ∧ value < 256) ∧ n ≤ 8 := by
  have hmax : Config.hw.wmax = 8 := rfl
  simp only [Instr.wf, Bool.and_eq_true, decide_eq_true_eq, hmax]

theorem Instr.wf_brRead_iff {n : Nat} : Instr.wf (.brRead n) = true ↔ n ≤ 8 := by
  have hmax : Config.hw.wmax = 8 := rfl
  simp only [Instr.wf, decide_eq_true_eq, hmax]

theorem operation_of_write (h : w.op = 2) : operation w .none = some (.bwWrite w.value w.count) := by
  simp only [operation, h]

theorem operation_of_read (h : w.op = 5) : operation w .none = some (.brRead w.count) := by
  simp only [operation, h]

/-- The row of an encoded operation is its own (R99); only BW.WRITE and BR.READ carry operands in the word. -/
theorem operation_encode (h : i.wf = true) : operation (encode i).word (encode i).payload = some i := by
  cases i with
  | bwWrite value n =>
    obtain ⟨⟨h0, h256⟩, hn⟩ := Instr.wf_bwWrite_iff.mp h
    obtain ⟨hop, hcount, hvalue⟩ := commandWord_fields (op := 2) (n := n) (v := value.toNat)
      (by omega) (by omega) (by omega)
    rw [encode, operation_of_write hop, hcount, hvalue, Int.toNat_of_nonneg h0]
  | brRead n =>
    have hn := Instr.wf_brRead_iff.mp h
    obtain ⟨hop, hcount, -⟩ := commandWord_fields (op := 5) (n := n) (v := 0) (by omega) (by omega) (by omega)
    rw [encode, operation_of_read hop, hcount]
  | bwInit | bwFlush | brLoad | encEncode | decDecode | rsOpen | rsNext =>
    have hop := (encodedWord _ h).1
    simp only [operation, hop]
    rfl

theorem decode_encode (h : i.wf = true) : decode (encode i) = .ok i :=
  decode_eq_ok_iff.mpr ⟨(encodedWord i h).2, operation_encode h⟩

/-- Outside BW.WRITE and BR.READ a legal word is its operation code alone (R98, R100). -/
theorem commandWord_zeroOperands (hl : legalWord w = true) {op : Nat} (hop : w.op = op) (h2 : op ≠ 2)
    (h5 : op ≠ 5) : commandWord op 0 0 = w := by
  have hfields := (legalWord_iff w).mp hl
  have hcount : w.count = 0 := by omega
  have hvalue : w.value = 0 := by omega
  calc commandWord op 0 0 = commandWord w.op w.count w.value := by rw [hop, hcount, hvalue]
    _ = w := commandWord_eta w

theorem encode_operation (hl : legalWord w = true) (h : operation w p = some i) : encode i = ⟨w, p⟩ := by
  have heta := commandWord_eta w
  unfold operation at h
  split at h <;> cases h
  case h_2 hop =>
    rw [hop] at heta
    rw [encode, Int.toNat_natCast, heta]
  case h_5 hop =>
    have hvalue : w.value = 0 := by have := (legalWord_iff w).mp hl; omega
    rw [hop, hvalue] at heta
    rw [encode, heta]
  case h_1 hop | h_3 hop | h_4 hop | h_6 hop | h_7 hop | h_8 hop | h_9 hop =>
    exact congrArg (Command.mk · _) (commandWord_zeroOperands hl hop (by decide) (by decide))

end Sys2Proof

namespace Sys2Proof.Machine

theorem takeCommand_of_reserved {c : Command} (h : legalWord c.word = false) (s : State) :
    takeCommand c s = .next (s.raise (.illegalCommand c.word)) := by
  rw [takeCommand, decode_eq_illegalCommand_iff.mpr h]

/-- Settles O6: the encoded word is legal, and its row with its payload gives the operation back. -/
theorem decodeInvertsEncode : Obligations.DecodeInvertsEncode := fun _ h => decode_encode h

/-- Settles O5: `legalWord` is the complement of R100's list, and the port tests it before anything else. -/
theorem reservedWordsRaiseIllegalCommand : Obligations.ReservedWordsRaiseIllegalCommand := by
  intro s c rest hpending op n value reserved
  have hlegal : legalWord c.word = true ↔ ¬ reserved := legalWord_iff c.word
  constructor
  · intro hreserved
    have hword : legalWord c.word = false := Bool.eq_false_iff.mpr fun h => hlegal.mp h hreserved
    rw [step_command hpending, takeCommand_of_reserved hword]
    rfl
  · intro hfree hillegal
    rw [decode_eq_illegalCommand_iff, hlegal.mpr hfree] at hillegal
    cases hillegal

/-- Settles O7: a decoded command is a legal word with its row's payload, and each row is put together from the fields
it was read from. -/
theorem encodeInvertsDecode : Obligations.EncodeInvertsDecode := by
  intro c i h
  obtain ⟨hlegal, hoperation⟩ := decode_eq_ok_iff.mp h
  exact encode_operation hlegal hoperation

/-- Settles O3: each of the ten words is the encoding of its row's operation, and the last two are reserved. -/
theorem wordsOfTheTableDecode : Obligations.WordsOfTheTableDecode :=
  ⟨decode_encode (i := .bwInit) rfl, decode_encode (i := .bwWrite 7 8) rfl, decode_encode (i := .bwWrite 44 7) rfl,
    decode_encode (i := .bwFlush) rfl, decode_encode (i := .brLoad [0xFD, 0x01]) rfl,
    decode_encode (i := .brRead 6) rfl, decode_encode (i := .encEncode { kk := 160 }) rfl,
    decode_encode (i := .decDecode [0xEE]) rfl, decode_encode (i := .rsOpen []) rfl, decode_encode (i := .rsNext) rfl,
    decode_eq_illegalCommand_iff.mpr (by decide), decode_eq_illegalCommand_iff.mpr (by decide)⟩

end Sys2Proof.Machine
end

section

/-! ### Field codes (R81 to R85) -/

namespace Sys2Proof.Machine

theorem mem_sentinelFields_iff (f : FieldId) : f ∈ sentinelFields ↔ f.sentinel = true := by
  cases f <;> decide

/-- Only `ver` is as wide as a byte (R31). -/
theorem FieldId.width_le_seven {f : FieldId} (h : f ≠ .ver) : f.width ≤ 7 := by
  revert h; cases f <;> decide

theorem encCode_unknown {f : FieldId} (h : f.sentinel = true) : encCode f (-1) = 2 ^ f.width - 1 := by
  rw [encCode, if_neg (by simp), if_pos ⟨h, rfl⟩]

section Decoded

variable (f : FieldId) (c : Nat)

theorem decValue_eq_unknown_iff : decValue f c = -1 ↔ f ∈ sentinelFields ∧ c = 2 ^ f.width - 1 := by
  rw [mem_sentinelFields_iff]
  unfold decValue
  split_ifs with hdorg htop
  · simp [hdorg.1, FieldId.sentinel]
  · exact iff_of_true rfl ⟨htop.1, Int.ofNat_inj.mp htop.2⟩
  · exact iff_of_false not_false fun ⟨hsentinel, htopCode⟩ => htop ⟨hsentinel, congrArg Nat.cast htopCode⟩

theorem decValue_eq_255_iff (hc : c < 2 ^ f.width) :
    decValue f c = 255 ↔ (f = .dorg ∧ c = 3) ∨ (f = .ver ∧ c = 255) := by
  unfold decValue
  split_ifs with hdorg htop
  · exact iff_of_true rfl (.inl ⟨hdorg.1, Int.ofNat_inj.mp hdorg.2⟩)
  · refine iff_of_false (by decide) ?_
    rintro (⟨rfl, -⟩ | ⟨rfl, -⟩) <;> exact Bool.noConfusion htop.1
  · have hver : c = 255 → f = .ver := by
      intro h255
      by_contra hne
      have := Nat.pow_le_pow_right (n := 2) (by decide) (FieldId.width_le_seven hne)
      omega
    constructor
    · intro h
      have h255 : c = 255 := by omega
      exact .inr ⟨hver h255, h255⟩
    · rintro (⟨h, rfl⟩ | ⟨-, rfl⟩)
      · exact absurd ⟨h, rfl⟩ hdorg
      · rfl

end Decoded

/-- Settles O25: the round trip is R85's law; the codes of -1 and 255 are read off the two substitutions of R84 and
R85. -/
theorem fieldCodesReverse : Obligations.FieldCodesReverse :=
  ⟨fun _ _ hkk hfaithful => decValue_encCode hfaithful hkk,
    fun f c hc => ⟨decValue_eq_unknown_iff f c, decValue_eq_255_iff f c hc⟩,
    fun f hf => encCode_unknown ((mem_sentinelFields_iff f).mp hf), by decide, by decide⟩

end Sys2Proof.Machine
end

section

/-! ### Sector codes for every admissible digit map (R88 to R90) -/

namespace Sys2Proof.Machine

variable {sd : SectDigit}

theorem sectCode_digitChar (sd : SectDigit) (d : Fin 10) : sectCode sd (digitChar d) = sd d := by
  have hfixed : digitChar d ≠ space ∧ digitChar d ≠ 0x2F ∧ digitChar d ≠ 0x2D := by revert d; decide
  obtain ⟨hspace, hslash, hdash⟩ := hfixed
  rw [sectCode, if_neg hspace, if_neg hslash, if_neg hdash, digitOf_digitChar]

theorem sectCode_of_not_inAlphabet (sd : SectDigit) {ch : Byte} (h : inAlphabet ch = false) : sectCode sd ch = 0 := by
  simp only [inAlphabet, Bool.or_eq_false_iff, beq_eq_false_iff_ne] at h
  obtain ⟨⟨⟨hspace, hslash⟩, hdash⟩, hdigit⟩ := h
  have hnone : digitOf ch = none := dif_neg (by simpa using hdigit)
  rw [sectCode, if_neg (show ch ≠ space from hspace), if_neg hslash, if_neg hdash, hnone]

/-- The codes that have a character (R90): the three fixed ones and those of the digits. -/
def usedSectCodes (sd : SectDigit) : Finset Nat := {0, 9, 10} ∪ Finset.univ.image sd

theorem mem_usedSectCodes (sd : SectDigit) (c : Nat) :
    c ∈ usedSectCodes sd ↔ (c = 0 ∨ c = 9 ∨ c = 10) ∨ ∃ d, sd d = c := by
  simp [usedSectCodes, or_assoc]

theorem sectChar_eq_none_iff (sd : SectDigit) (c : Nat) : sectChar sd c = none ↔ c ∉ usedSectCodes sd := by
  rw [mem_usedSectCodes, sectChar]
  split_ifs with h0 h9 h10
  · simp [h0]
  · simp [h9]
  · simp [h10]
  · simp [h0, h9, h10]

theorem card_usedSectCodes (h : sd.Admissible) : (usedSectCodes sd).card = 13 := by
  have hdisj : Disjoint ({0, 9, 10} : Finset Nat) (Finset.univ.image sd) := by
    rw [Finset.disjoint_right]
    intro c hc
    obtain ⟨d, -, rfl⟩ := Finset.mem_image.mp hc
    have := h.2 d
    simp only [Finset.mem_insert, Finset.mem_singleton]
    omega
  rw [usedSectCodes, Finset.card_union_of_disjoint hdisj, Finset.card_image_of_injective _ fun d e => h.1 d e]
  rfl

theorem usedSectCodes_subset (h : sd.Admissible) : usedSectCodes sd ⊆ Finset.range 16 := by
  intro c hc
  rw [Finset.mem_range]
  rcases (mem_usedSectCodes sd c).mp hc with hfixed | ⟨d, rfl⟩
  · omega
  · have := h.2 d; omega

/-- R90: 16 - 13 = 3. -/
theorem characterless_length (h : sd.Admissible) :
    ((List.range 16).filter fun c => (sectChar sd c).isNone).length = 3 := by
  have hcodes : ((List.range 16).filter fun c => (sectChar sd c).isNone).toFinset =
      Finset.range 16 \ usedSectCodes sd := by
    ext c
    simp [sectChar_eq_none_iff]
  rw [← List.toFinset_card_of_nodup (List.nodup_range.filter _), hcodes,
    Finset.card_sdiff_of_subset (usedSectCodes_subset h), card_usedSectCodes h, Finset.card_range]

end Sys2Proof.Machine

namespace Sys2Proof.Machine

/-- Settles O26: the codes are read off R89, and the characterless ones are counted as those that neither a fixed
character nor a digit uses. -/
theorem sectorCodesReverse : Obligations.SectorCodesReverse := by
  intro sd hsd
  refine ⟨⟨rfl, rfl, rfl, sectCode_digitChar sd⟩, fun ch hch => ⟨?_, sectCode_lt hsd ch⟩,
    fun ch hch => sectCode_of_not_inAlphabet sd hch, characterless_length hsd⟩
  rw [sectChar_sectCode hsd, if_pos hch]

end Sys2Proof.Machine
end

section

/-! ### An encoded record by stream position (R72, R77, R86, R91 to R94) -/

namespace Sys2Proof.Machine

variable {sd : SectDigit} {x : Observation}

theorem lowBits_sectCode (hsd : sd.Admissible) (ch : Byte) : lowBits 4 (sectCode sd ch : Int) = sectCode sd ch := by
  have hlt := sectCode_lt hsd ch
  exact Int.ofNat_inj.mp (lowBits_of_range (n := 4) (v := (sectCode sd ch : Int)) (by omega) (by omega))

/-- R86: character `i` of the wire string, the space where the sectors have ended. -/
theorem padSectors_getElem {s : List Byte} {i : Nat} (hi : i < (padSectors s).length) :
    (padSectors s)[i] = if h : i < s.length then s[i] else space := by
  simp only [padSectors, List.getElem_append, List.getElem_replicate]

/-- R77: the last bit of the fixed region is a pad bit. -/
theorem recordOf_padBit (sd : SectDigit) (h : x.sectors.length ≤ 15) :
    streamBit (recordOf sd x) (8 * (if x.kk > 99 then 23 else 22) - 1) = false := by
  have hregion := fixedRegion_length sd h
  have hbits := recordWrites_length sd h
  have hwritten : (writtenBits (recordWrites sd x)).length ≤ 8 * (if x.kk > 99 then 23 else 22) - 1 := by
    rw [writtenBits_length, hbits]; split_ifs <;> decide
  rw [recordOf, List.append_assoc, streamBit_append_left _ (by rw [hregion]; split_ifs <;> decide), streamBit_pack,
    List.getD_eq_default _ _ hwritten]

/-- R94: nothing but the remark follows the length byte. -/
theorem recordOf_drop (sd : SectDigit) (h : x.sectors.length ≤ 15) :
    (recordOf sd x).drop ((if x.kk > 99 then 23 else 22) + 1) = x.remark := by
  refine List.drop_left' ?_
  rw [List.length_append, fixedRegion_length sd h, List.length_singleton]

end Sys2Proof.Machine

namespace Sys2Proof.Machine

/-- Settles O30: ENC.ENCODE answers `recordOf`, whose codes stand by `recordOf_codes`; the padding, the pad bit and the
bytes after the fixed region are added to it. -/
theorem encodedFieldsStandAtTheirPositions : Obligations.EncodedFieldsStandAtTheirPositions := by
  intro s t x B hwf hexec hresponse
  obtain ⟨hsectors, hremark⟩ := (Observation.wf_iff x).mp hwf
  have hB : B = recordOf Config.hw.sectDigit x := by
    cases exec_completes hexec
    simpa using hresponse.symm
  obtain ⟨hkk7, hfields, hkk8, hsect⟩ := recordOf_codes Config.hw.sectDigit x []
  obtain ⟨hlength, -⟩ := recordOf_tail (sd := Config.hw.sectDigit) hsectors hremark [] _ rfl
  simp only [List.append_nil, ← hB] at hkk7 hfields hkk8 hsect hlength
  refine ⟨hkk7, hkk8, hfields, fun i hi => ?_, ?_, hlength, ?_⟩
  · have hpad : i < (padSectors x.sectors).length := by rw [padSectors_length hsectors]; exact hi
    rw [hsect i hpad, lowBits_sectCode Config.hw_admissible, padSectors_getElem hpad]
    rfl
  · rw [hB]; exact recordOf_padBit _ hsectors
  · rw [hB]; exact recordOf_drop _ hsectors

end Sys2Proof.Machine
end

section

/-! ### Each BitWriter operation by the state of the writer (R111 to R113, R231) -/

namespace Sys2Proof.Machine

/-- The state in which BW.FLUSH has returned the bytes `B` (R113). -/
def State.flushed (s : State) (B : List Byte) : State :=
  { s with bw := { buf := B, acc := 0, cnt := 0, closed := true }, response := some (.ok (.bytes B)) }

variable {s : State}

theorem exec_bwWrite_open (ho : s.bw.closed = false) (v : Int) (n : Nat) :
    exec (.bwWrite v n) s =
      .next ({ s with bw := BitWriter.putBits (valueBits v n) s.bw }.succeed .none) := by
  rcases exec_bwWrite v n s with ⟨hc, -⟩ | ⟨-, he⟩
  · rw [ho] at hc; cases hc
  · exact he

theorem exec_bwWrite_closed (hc : s.bw.closed = true) (v : Int) (n : Nat) :
    exec (.bwWrite v n) s = .next (s.raise .writerClosed) := by
  rcases exec_bwWrite v n s with ⟨-, he⟩ | ⟨ho, -⟩
  · exact he
  · rw [hc] at ho; cases ho

theorem exec_bwFlush_open (hw : s.bw.Inv) (ho : s.bw.closed = false) :
    exec .bwFlush s = .next (s.flushed (pack s.bw.stream)) := by
  rcases exec_bwFlush s with ⟨hc, -⟩ | ⟨-, w, hflush, -, he⟩
  · rw [ho] at hc; cases hc
  · cases hflush.symm.trans (BitWriter.flush_ok hw ho)
    exact he

theorem exec_bwFlush_closed (hc : s.bw.closed = true) : exec .bwFlush s = .next (s.raise .writerClosed) := by
  rcases exec_bwFlush s with ⟨-, he⟩ | ⟨ho, -⟩
  · exact he
  · rw [hc] at ho; cases ho

/-- Settles O15: each of the three operations is its own update of the state. -/
theorem initialisingOperationsMakeNewUnits : Obligations.InitialisingOperationsMakeNewUnits :=
  fun s b => ⟨exec_bwInit s, exec_brLoad b s, ⟨_, _, exec_rsOpen b s⟩, rfl, rfl, rfl⟩

end Sys2Proof.Machine
end

section

/-! ### What a write does to the registers and to the stream (R22, R65, R112, R116, R232) -/

namespace Sys2Proof.Machine

theorem overCapacity_eq_true_iff {cap : Option Nat} {T : Nat} :
    overCapacity cap T = true ↔ ∃ c, cap = some c ∧ c < (T + 7) / 8 := by
  cases cap <;> simp [overCapacity]

theorem overCapacity_eq_false_iff {cap : Option Nat} {T : Nat} :
    overCapacity cap T = false ↔ ∀ c, cap = some c → (T + 7) / 8 ≤ c := by
  cases cap <;> simp [overCapacity]

variable {cfg : Config} {w : BitWriter}

theorem BitWriter.write_full {v : Int} {n : Nat} (ho : w.closed = false)
    (hfull : overCapacity cfg.bwCap (w.written + n) = true) :
    w.write cfg v n = .error (.writerFull w.written n) := by
  rw [BitWriter.write, ho, hfull]
  rfl

/-- The bytes of a writer, the partial one included, are as many as its bits need (R22, R116). -/
theorem BitWriter.Inv.bytes_le {c : Nat} (hw : w.Inv) (hfit : (w.written + 7) / 8 ≤ c) :
    w.buf.length ≤ c ∧ (0 < w.cnt → w.buf.length < c) := by
  have hcnt := hw.cnt_lt
  rw [BitWriter.written] at hfit
  omega

theorem BitWriter.putBits_written (hw : w.Inv) (ho : w.closed = false) (bs : List Bool) :
    (BitWriter.putBits bs w).written = w.written + bs.length := by
  obtain ⟨-, hstream⟩ := BitWriter.putBits_spec hw ho bs
  rw [← BitWriter.stream_length, hstream, List.length_append, BitWriter.stream_length]

/-- Settles O16: a write on an open writer puts the bits of its value one after another, which appends them to the
stream (`putBits_spec`), counts them (`putBits_shape`) and only extends `buf` (`putBits_buf_prefix`). -/
theorem bwWriteAppendsTheLowBits : Obligations.BwWriteAppendsTheLowBits := by
  intro s v n hw ho
  obtain ⟨hinv, hstream⟩ := BitWriter.putBits_spec hw ho (valueBits v n)
  obtain ⟨hbuf, hcnt⟩ := BitWriter.putBits_shape hw ho (valueBits v n)
  obtain ⟨added, hadded⟩ := BitWriter.putBits_buf_prefix (valueBits v n) s.bw
  rw [valueBits_length, BitWriter.written] at hbuf hcnt
  refine ⟨_, exec_bwWrite_open ho v n, hstream, hinv, (BitWriter.putBits_closed _ _).trans ho, hbuf, ?_, fun j hj => ?_⟩
  · rw [hcnt, Nat.add_assoc, Nat.mul_add_mod]
  · rw [← hadded, List.getElem?_append_left hj]

/-- Settles O17: `overCapacity` splits the open case, and a write that passes the test leaves a writer of `T + n` bits,
which the test says fit. -/
theorem writerFullExactlyPastTheCapacity : Obligations.WriterFullExactlyPastTheCapacity := by
  intro cfg w v n hw
  refine ⟨BitWriter.write_closed v n, fun cap ho hcap hfull => ?_, fun ho hfit => ?_⟩
  · exact BitWriter.write_full ho (overCapacity_eq_true_iff.mpr ⟨cap, hcap, hfull⟩)
  · obtain ⟨hinv, hstream⟩ := BitWriter.putBits_spec hw ho (valueBits v n)
    refine ⟨_, BitWriter.write_ok v n ho (overCapacity_eq_false_iff.mpr hfit), hinv,
      (BitWriter.putBits_closed _ _).trans ho, hstream, fun cap hcap => hinv.bytes_le ?_⟩
    rw [BitWriter.putBits_written hw ho, valueBits_length]
    exact hfit cap hcap

end Sys2Proof.Machine
end

section

/-! ### Which writes are the same write (R112, R115, R117, R119) -/

namespace Sys2Proof.Machine

theorem lowBits_add_mul (n : Nat) (v k : Int) : lowBits n (v + k * ((2 ^ n : Nat) : Int)) = lowBits n v := by
  rw [lowBits, Int.add_mul_emod_self_right, lowBits]

/-- R112: a write looks only at the low `n` bits of its value. -/
theorem exec_bwWrite_congr {v w : Int} {n : Nat} (h : lowBits n v = lowBits n w) (s : State) :
    exec (.bwWrite v n) s = exec (.bwWrite w n) s := by
  have hbits : valueBits v n = valueBits w n := by rw [valueBits_eq, valueBits_eq, h]
  cases hc : s.bw.closed with
  | true => rw [exec_bwWrite_closed hc, exec_bwWrite_closed hc]
  | false => rw [exec_bwWrite_open hc, exec_bwWrite_open hc, hbits]

/-- Settles O18: the bits of the value are those of its two parts (`valueBits_add`), put in two runs; on a closed writer
both writes raise the same condition and keep every register. -/
theorem bwWriteSplits : Obligations.BwWriteSplits := by
  intro s v n1 n2
  cases hc : s.bw.closed with
  | true =>
    rw [exec_bwWrite_closed hc, exec_bwWrite_closed hc]
    exact (exec_bwWrite_closed (s := s.raise .writerClosed) hc _ n2).symm
  | false =>
    have hstill : (BitWriter.putBits (valueBits v n1) s.bw).closed = false := (BitWriter.putBits_closed _ _).trans hc
    rw [exec_bwWrite_open hc, exec_bwWrite_open hc, valueBits_add, BitWriter.putBits_append]
    exact (exec_bwWrite_open (s := State.succeed { s with bw := BitWriter.putBits (valueBits v n1) s.bw } .none)
      hstill _ n2).symm

/-- Settles O19: both pairs of values have the same low `n` bits. -/
theorem bwWriteIgnoresHighBits : Obligations.BwWriteIgnoresHighBits := fun s v k n =>
  ⟨exec_bwWrite_congr (lowBits_lowBits n v).symm s, exec_bwWrite_congr (lowBits_add_mul n v k) s⟩

end Sys2Proof.Machine
end

section

/-! ### What a flush returns (R113, R114) -/

namespace Sys2Proof.Machine

/-- R113: a flush changes no completed byte. -/
theorem BitWriter.buf_prefix_pack_stream (w : BitWriter) : w.buf <+: pack w.stream := by
  rw [BitWriter.stream, pack_unpack_append]
  exact List.prefix_append _ _

/-- Settles O20: the answer is `pack` of the stream, whose length and padding are those of `pack` (`pack_length`,
`unpack_pack`) on a stream of `T` bits. -/
theorem bwFlushReturnsThePackedStream : Obligations.BwFlushReturnsThePackedStream := by
  intro s hw
  refine ⟨fun ho => ⟨exec_bwFlush_open hw ho, ?_, ?_, fun j hj => ?_⟩, exec_bwFlush_closed, rfl⟩
  · rw [pack_length, BitWriter.stream_length]
  · rw [unpack_pack, BitWriter.stream_length]
  · obtain ⟨rest, hrest⟩ := s.bw.buf_prefix_pack_stream
    rw [← hrest, List.getElem?_append_left hj]

theorem runOps_cons {i : Instr} {is : List Instr} {s t u : State} {rs : List (Option Response)}
    (hi : exec i s = .next t) (his : runOps is t = .next (u, rs)) :
    runOps (i :: is) s = .next (u, t.response :: rs) := by
  simp only [runOps, hi, his]

/-- Writes on an open writer and then a flush return the packed stream with the bits of the writes at its end (R113,
R114). -/
theorem runOps_writes_flush (ws : List (Int × Nat)) {s : State} (hw : s.bw.Inv) (ho : s.bw.closed = false) :
    runOps (writeOps ws ++ [.bwFlush]) s = .next (s.flushed (pack (s.bw.stream ++ writtenBits ws)),
      ws.map (fun _ => some (.ok .none)) ++ [some (.ok (.bytes (pack (s.bw.stream ++ writtenBits ws))))]) := by
  induction ws generalizing s with
  | nil =>
    rw [writtenBits_nil, List.append_nil]
    exact runOps_single (exec_bwFlush_open hw ho)
  | cons p ws ih =>
    obtain ⟨hinv, hstream⟩ := BitWriter.putBits_spec hw ho (valueBits p.1 p.2)
    have hrest := ih (s := State.succeed { s with bw := BitWriter.putBits (valueBits p.1 p.2) s.bw } .none) hinv
      ((BitWriter.putBits_closed _ _).trans ho)
    rw [State.succeed_bw, hstream, List.append_assoc, ← writtenBits_cons] at hrest
    exact runOps_cons (exec_bwWrite_open ho p.1 p.2) hrest

/-- Settles O21: a new writer has the empty stream, so the flush returns `pack` of the bits of the writes, whose
little-endian integer is their number (`littleEndian_pack`, `bitsToNat_writtenBits`). BW.INIT makes the writer new. -/
theorem writesThenFlushHaveTheClosedForm : Obligations.WritesThenFlushHaveTheClosedForm := by
  intro s ws
  refine ⟨s.flushed (pack (writtenBits ws)), pack (writtenBits ws), fun hnew => ?_, ?_, rfl, ?_, ?_, rfl⟩
  · have hrun := runOps_writes_flush ws (s := s) (hnew ▸ BitWriter.reset_inv) (hnew ▸ rfl)
    rwa [show s.bw.stream = [] from hnew ▸ rfl] at hrun
  · exact runOps_cons (exec_bwInit s) (runOps_writes_flush ws BitWriter.reset_inv rfl)
  · rw [littleEndian_pack, ← bitsToNat_writtenBits, pow_zero, one_mul]
  · rw [pack_length, writtenBits_length, writtenLength]

end Sys2Proof.Machine
end

section

/-! ### What a read returns (R133, R134) -/

namespace Sys2Proof.Machine

theorem exec_brRead_pastEnd {s : State} {n : Nat} (h : 8 * s.br.src.length < s.br.cur + n) :
    exec (.brRead n) s = .next (s.raise (.unexpectedEndOfData s.br.cur n s.br.src.length)) := by
  rcases exec_brRead n s with ⟨hfit, -⟩ | ⟨-, he⟩
  · omega
  · exact he

/-- R133: the first bit has weight 1, each later bit twice the weight of the one before it. -/
theorem bitsToNat_map_range (f : Nat → Bool) (n : Nat) :
    bitsToNat ((List.range n).map f) = ((List.range n).map fun i => (f i).toNat * 2 ^ i).sum := by
  induction n with
  | zero => rfl
  | succ n ih => simp [List.range_succ, bitsToNat_append, ih, Nat.mul_comm]

/-- Settles O22: with enough bits the answer is the code at the cursor, whose two forms are `codeAt_eq` and the weights
of its bits; with fewer the read raises its condition and keeps the registers. -/
theorem brReadReturnsTheNextBits : Obligations.BrReadReturnsTheNextBits := by
  intro s n
  have hcode := codeAt_eq s.br.src s.br.cur n
  refine ⟨fun hfit => ?_, exec_brRead_pastEnd, ?_, fun _ => rfl⟩
  · rw [exec_brRead_fits hfit, hcode]
    rfl
  · rw [← hcode, codeAt, bitsToNat_map_range]

end Sys2Proof.Machine
end

section

/-! ### The reader inverts the writer (R135) -/

namespace Sys2Proof.Machine

theorem valueBits_of_zero (n : Nat) : valueBits 0 n = List.replicate n false := by
  simp [valueBits, bit, List.eq_replicate_iff]

/-- The pad bits that fill the last byte of a stream of `T` bits (R13, R113), as a write of their own. -/
def padWrite (T : Nat) : Int × Nat := (0, (8 - T % 8) % 8)

/-- The pad bits of a flush are what a write of that many zeros puts there. -/
theorem pack_writtenBits_padWrite (ws : List (Int × Nat)) :
    pack (writtenBits (ws ++ [padWrite (writtenLength ws)])) = pack (writtenBits ws) := by
  have hpadded : writtenBits (ws ++ [padWrite (writtenLength ws)]) = unpack (pack (writtenBits ws)) := by
    rw [writtenBits_append, writtenBits_cons, writtenBits_nil, List.append_nil, padWrite, valueBits_of_zero,
      unpack_pack, writtenBits_length]
  rw [hpadded, pack_unpack]

/-- With the pad bits counted, the writes fill the packed sequence. -/
theorem writtenLength_padWrite (ws : List (Int × Nat)) :
    writtenLength (ws ++ [padWrite (writtenLength ws)]) = 8 * (pack (writtenBits ws)).length := by
  rw [writtenLength_append, writtenLength_cons, pack_length, writtenBits_length]
  simp only [padWrite, writtenLength, List.map_nil, List.sum_nil]
  omega

theorem lowBits_of_zero (n : Nat) : lowBits n 0 = 0 := by
  rw [lowBits, Int.zero_emod, Int.toNat_zero]

/-- A packed sequence of writes carries each write at its offset, the pad bits as the last one. -/
theorem writesAt_pack_padWrite (ws : List (Int × Nat)) :
    WritesAt (pack (writtenBits ws)) (ws ++ [padWrite (writtenLength ws)]) 0 := by
  have hat := writesAt_pack (ws ++ [padWrite (writtenLength ws)]) []
  rwa [List.append_nil, pack_writtenBits_padWrite] at hat

/-- Reads of the widths of writes that fill the rest of the slice return the low bits written, and the read after them
finds no bit left (R133, R135). -/
theorem runOps_reads_pastEnd (ws : List (Int × Nat)) {m : Nat} (hm : 0 < m) {s : State}
    (hat : WritesAt s.br.src ws s.br.cur) (hend : s.br.cur + writtenLength ws = 8 * s.br.src.length) :
    ∃ u : State, runOps (ws.map (fun p => .brRead p.2) ++ [.brRead m]) s =
      .next (u, ws.map (fun p => some (.ok (.value p.2 (lowBits p.2 p.1)))) ++
        [some (.condition (.unexpectedEndOfData (8 * s.br.src.length) m s.br.src.length))]) := by
  induction ws generalizing s with
  | nil =>
    have hcur : s.br.cur = 8 * s.br.src.length := hend
    rw [← hcur]
    exact ⟨_, runOps_single (exec_brRead_pastEnd (by omega))⟩
  | cons p ws ih =>
    obtain ⟨v, n⟩ := p
    obtain ⟨hcode, hrest⟩ := hat
    rw [writtenLength_cons] at hend
    have hread := exec_brRead_fits (s := s) (n := n) (by omega)
    rw [hcode] at hread
    obtain ⟨u, hu⟩ := ih (s := State.succeed { s with br := { s.br with cur := s.br.cur + n } }
      (.value n (lowBits n v))) hrest (by rw [State.succeed_br, Nat.add_assoc]; exact hend)
    exact ⟨u, runOps_cons hread hu⟩

theorem runOps_load_reads_pastEnd {B : List Byte} {ws : List (Int × Nat)} {m : Nat} (hm : 0 < m)
    (hat : WritesAt B ws 0) (hend : writtenLength ws = 8 * B.length) (s : State) :
    ∃ u : State, runOps (.brLoad B :: (ws.map (fun p => .brRead p.2) ++ [.brRead m])) s =
      .next (u, some (.ok .none) :: (ws.map (fun p => some (.ok (.value p.2 (lowBits p.2 p.1)))) ++
        [some (.condition (.unexpectedEndOfData (8 * B.length) m B.length))])) := by
  obtain ⟨u, hu⟩ := runOps_reads_pastEnd ws hm (s := State.succeed { s with br := .load B } .none) hat
    ((Nat.zero_add _).trans hend)
  exact ⟨u, runOps_cons (exec_brLoad B s) hu⟩

/-- Settles O24: the flush returns the packed bits of the writes, in which the pad bits stand as a last write of 0,
so the reads find every write at its offset (`writesAt_pack_padWrite`) and the whole slice is read
(`writtenLength_padWrite`). -/
theorem readerInvertsWriter : Obligations.ReaderInvertsWriter := by
  intro s ws m hm
  refine ⟨s.flushed (pack (writtenBits ws)), pack (writtenBits ws),
    runOps_cons (exec_bwInit s) (runOps_writes_flush ws BitWriter.reset_inv rfl), ?_⟩
  have hreads := runOps_load_reads_pastEnd hm (writesAt_pack_padWrite ws) (writtenLength_padWrite ws)
    (s.flushed (pack (writtenBits ws)))
  simpa only [List.map_append, List.map_cons, List.map_nil, List.append_assoc, List.cons_append, List.nil_append,
    padWrite, writtenLength, lowBits_of_zero] using hreads

end Sys2Proof.Machine
end

section

/-! ### The length of a record, and which Observations have the same one (R35, R82, R84, R89, R154, R158) -/

namespace Sys2Proof.Machine

theorem exec_encEncode_of_wf {x : Observation} (hwf : x.wf = true) (s : State) :
    exec (.encEncode x) s = .next (s.succeed (.bytes (recordOf Config.hw.sectDigit x))) := by
  rcases exec_encEncode x s with ⟨-, he⟩ | ⟨hnot, -⟩
  · exact he
  · rw [hwf] at hnot; cases hnot

/-- Settles O29: the answer is `recordOf`, whose length `recordOf_length` gives in both formats. -/
theorem encodeReturnsARecordOfTheStatedLength : Obligations.EncodeReturnsARecordOfTheStatedLength := by
  intro s x hwf
  have hlength := recordOf_length Config.hw.sectDigit ((Observation.wf_iff x).mp hwf).1
  refine ⟨_, exec_encEncode_of_wf hwf s, fun hnormal => ?_, fun hescape => ?_⟩
  · rw [hlength, if_neg (not_lt.mpr hnormal)]
  · rw [hlength, if_pos hescape]

/-- On the faithful set a record can be read back (R192), so it tells the Observation. -/
theorem recordOf_injOn_faithful {sd : SectDigit} (hsd : sd.Admissible) :
    Set.InjOn (recordOf sd) {x | x.faithful = true} := by
  intro x hx y hy hrecord
  have hdx := decode_recordOf_faithful hsd hx []
  have hdy := decode_recordOf_faithful hsd hy []
  rw [hrecord, hdy] at hdx
  cases hdx
  rfl

section SameRecord

variable {x y : Observation} {f : FieldId} {v w : Int}

theorem Observation.get_set (x : Observation) (f g : FieldId) (v : Int) :
    (x.set f v).get g = if g = f then v else x.get g := by
  cases f <;> cases g <;> rfl

/-- R152: the encoder sees an Observation through its writes and its remark. -/
theorem encodeRecord_congr {cfg : Config} (hwrites : recordWrites cfg.sectDigit x = recordWrites cfg.sectDigit y)
    (hremark : x.remark = y.remark) : encodeRecord cfg x = encodeRecord cfg y := by
  rw [encodeRecord, encodeRecord, hwrites, hremark]

/-- R152, R153: the writes see a later field through its code and the sectors through those of the wire string. -/
theorem recordWrites_congr {sd : SectDigit} (hfirst : ∀ g, g ∉ laterFields → x.get g = y.get g)
    (hlater : ∀ g ∈ laterFields, encCode g (x.get g) = encCode g (y.get g))
    (hsectors : (padSectors x.sectors).map (sectCode sd) = (padSectors y.sectors).map (sectCode sd)) :
    recordWrites sd x = recordWrites sd y := by
  have hver : x.ver = y.ver := hfirst .ver (by decide)
  have hkk : x.kk = y.kk := hfirst .kk (by decide)
  have hobj : x.obj = y.obj := hfirst .obj (by decide)
  have hcodes := List.map_congr_left fun g hg => congrArg (fun c : Nat => ((c : Int), g.width)) (hlater g hg)
  have hchars := congrArg (List.map fun c : Nat => ((c : Int), sectWidth)) hsectors
  simp only [List.map_map, Function.comp_def] at hchars
  simp only [recordWrites, observerWrites, hver, hkk, hobj, hcodes, hchars]

/-- Two values of a later field with one code give one record. -/
theorem encodeRecord_set_congr (cfg : Config) (x : Observation) (hf : f ∈ laterFields)
    (hcode : encCode f v = encCode f w) : encodeRecord cfg (x.set f v) = encodeRecord cfg (x.set f w) := by
  have hget : ∀ g, g ≠ f → (x.set f v).get g = (x.set f w).get g := fun g hg => by
    rw [Observation.get_set, Observation.get_set, if_neg hg, if_neg hg]
  have hsame : (x.set f v).sectors = (x.set f w).sectors ∧ (x.set f v).remark = (x.set f w).remark := by
    cases f <;> exact ⟨rfl, rfl⟩
  refine encodeRecord_congr (recordWrites_congr (fun g hg => hget g fun h => hg (h ▸ hf)) (fun g _ => ?_)
    (by rw [hsame.1])) hsame.2
  by_cases hg : g = f
  · rw [hg, Observation.get_set, Observation.get_set, if_pos rfl, if_pos rfl, hcode]
  · rw [hget g hg]

/-- Two sector strings with the same codes on the wire give one record. -/
theorem encodeRecord_sectors_congr {cfg : Config} {a b : List Byte} (x : Observation)
    (hcodes : (padSectors a).map (sectCode cfg.sectDigit) = (padSectors b).map (sectCode cfg.sectDigit)) :
    encodeRecord cfg { x with sectors := a } = encodeRecord cfg { x with sectors := b } := by
  refine encodeRecord_congr (recordWrites_congr (fun g _ => ?_) (fun g _ => ?_) hcodes) rfl <;> cases g <;> rfl

/-- R89: a character outside the alphabet goes out as a space. -/
theorem sectCodes_of_unmapped (sd : SectDigit) :
    (padSectors [0x61]).map (sectCode sd) = (padSectors [space]).map (sectCode sd) := by
  have hunmapped : sectCode sd 0x61 = sectCode sd space := sectCode_of_not_inAlphabet sd (by decide)
  simp only [padSectors, List.singleton_append, List.map_cons, List.length_singleton, hunmapped]

theorem padSectors_space : padSectors [space] = padSectors [] := by decide

end SameRecord

/-- Settles O31: the decoder inverts the encoder on the faithful set; each pair outside it has the same codes (R84,
R89), the spaces of the sectors being those of the padding (R86). -/
theorem encodeIsInjectiveOnTheFaithfulSet : Obligations.EncodeIsInjectiveOnTheFaithfulSet := by
  refine ⟨fun sd cfg x y B hsd hcfg hx hy hBx hBy => ?_, fun cfg x => ⟨?_, ?_, ?_, ?_, ?_⟩⟩
  · subst hcfg
    exact recordOf_injOn_faithful hsd hx hy ((encodeRecord_eq hBx).symm.trans (encodeRecord_eq hBy))
  · exact encodeRecord_set_congr (f := .dorg) cfg x (by decide) (by decide)
  · exact encodeRecord_set_congr (f := .bright) cfg x (by decide) (by decide)
  · exact encodeRecord_set_congr (f := .year) cfg x (by decide) (by decide)
  · exact encodeRecord_sectors_congr x (sectCodes_of_unmapped _)
  · exact encodeRecord_sectors_congr x ((sectCodes_of_unmapped _).trans (by rw [padSectors_space]))

end Sys2Proof.Machine
end

section

/-! ### What DEC.DECODE answers, by the two parts of the buffer: the fixed region and the remark (R183, R186, R188) -/

namespace Sys2Proof.Machine

variable {sd : SectDigit} {B : List Byte} {chars : List Byte}

theorem exec_decDecode_of_ok {x : Observation} {k : Nat} (h : decodeRecord Config.hw.sectDigit B = .ok (x, k))
    (s : State) : exec (.decDecode B) s = .next (s.succeed (.decoded x k)) := by
  rcases exec_decDecode B s with ⟨y, j, hd, he⟩ | ⟨c, hd, -⟩ <;> cases hd.symm.trans h
  exact he

theorem exec_decDecode_of_error {c : Condition} (h : decodeRecord Config.hw.sectDigit B = .error c) (s : State) :
    exec (.decDecode B) s = .next (s.raise c) := by
  rcases exec_decDecode B s with ⟨y, j, hd, -⟩ | ⟨e, hd, he⟩ <;> cases hd.symm.trans h
  exact he

/-- R188: the sector loop stops at the first code without a character. -/
theorem sectChars_of_lowest {cs : List Nat} {i : Nat} (hi : i < cs.length) (hnone : sectChar sd cs[i] = none)
    (hbefore : ∀ j, (hj : j < i) → (sectChar sd cs[j]).isSome) :
    sectChars sd 0 cs = .error (.malformedField i cs[i]) := by
  cases hc : sectChars sd 0 cs with
  | ok chs =>
    have hsome := congrArg (·[i]?) (sectChars_eq_ok_iff.mp hc)
    have hlen : i < chs.length := by rw [sectChars_ok hc]; exact hi
    simp [hi, hlen, hnone] at hsome
  | error e =>
    obtain ⟨j, hj, rfl, hj0, hjb⟩ := sectChars_eq_error hc
    rcases lt_trichotomy j i with hlt | rfl | hgt
    · have := hbefore j hlt
      rw [hj0] at this; cases this
    · rw [Nat.zero_add]
    · have := hjb i hgt
      rw [hnone] at this; cases this

theorem sectChars_of_isSome {cs : List Nat} (h : ∀ i, (hi : i < cs.length) → (sectChar sd cs[i]).isSome) :
    ∃ chs, sectChars sd 0 cs = .ok chs := by
  cases hc : sectChars sd 0 cs with
  | ok chs => exact ⟨chs, rfl⟩
  | error e =>
    obtain ⟨j, hj, -, hnone, -⟩ := sectChars_eq_error hc
    have := h j hj
    rw [hnone] at this; cases this

theorem sectorsByPosition_length (esc : Bool) (B : List Byte) : (sectorsByPosition esc B).length = 15 := by
  simp [sectorsByPosition]

theorem sectorsByPosition_getElem (esc : Bool) (B : List Byte) {i : Nat} (hi : i < (sectorsByPosition esc B).length) :
    (sectorsByPosition esc B)[i] = sectorCode esc B i := by
  simp [sectorsByPosition]

theorem decodeRecord_of_short (hlen : B.length < 22) : decodeRecord sd B = .error (.truncatedRecord B.length) := by
  rw [decodeRecord_eq, if_pos hlen]

/-- R137: the escape byte makes 22 bytes too few. -/
theorem decodeRecord_of_underrun (hlen : B.length = 22) (hesc : escapeRecord B = true) :
    decodeRecord sd B = .error (.unexpectedEndOfData 175 4 22) := by
  rw [decodeRecord_eq, if_neg (by omega), if_pos ⟨hlen, hesc⟩]

/-- R189: with the whole fixed region there, phases 0 and 1 raise nothing. -/
theorem decodeRecord_of_region (hregion : fixedSize B ≤ B.length) :
    decodeRecord sd B = decodeByPosition sd (escapeRecord B) B := by
  have hmin := (fixedSize_le B).1
  have hread : ¬(B.length = 22 ∧ escapeRecord B = true) := by
    rintro ⟨hlen, hesc⟩
    rw [fixedSize_eq, hesc, if_pos rfl] at hregion
    omega
  rw [decodeRecord_eq, if_neg (by omega), if_neg hread]

theorem decodeRecord_of_sectError {c : Condition} (hregion : fixedSize B ≤ B.length)
    (hsect : sectChars sd 0 (sectorsByPosition (escapeRecord B) B) = .error c) : decodeRecord sd B = .error c := by
  rw [decodeRecord_of_region hregion, decodeByPosition, hsect]

/-- R183: with the sector characters there, the remark alone decides. -/
theorem decodeRecord_of_sectChars (hregion : fixedSize B ≤ B.length)
    (hsect : sectChars sd 0 (sectorsByPosition (escapeRecord B) B) = .ok chars) :
    decodeRecord sd B = (frameRemark B).map fun p =>
      (normalise ((codesByPosition (escapeRecord B) B).mapFields decValue) chars p.1, p.2) := by
  rw [decodeRecord_of_region hregion, decodeByPosition, hsect]
  cases frameRemark B <;> rfl

theorem frameRemark_noLength (h : B.length < fixedSize B + 1) :
    frameRemark B = .error (.malformedRemark (fixedSize B) none B.length) := by
  rcases frameRemark_cases B with ⟨-, hf⟩ | ⟨hlen, -⟩ | ⟨-, hlen, -⟩
  · exact hf
  · omega
  · omega

theorem frameRemark_badLength (hlen : fixedSize B + 1 ≤ B.length)
    (h : 60 < (byteAt B (fixedSize B)).toNat ∨ B.length < fixedSize B + 1 + (byteAt B (fixedSize B)).toNat) :
    frameRemark B = .error (.malformedRemark (fixedSize B) (some (byteAt B (fixedSize B)).toNat) B.length) := by
  rcases frameRemark_cases B with ⟨hshort, -⟩ | ⟨-, -, hf⟩ | ⟨hmax, hfits, -⟩
  · omega
  · exact hf
  · omega

theorem frameRemark_fits (hmax : (byteAt B (fixedSize B)).toNat ≤ 60)
    (hfits : fixedSize B + 1 + (byteAt B (fixedSize B)).toNat ≤ B.length) :
    frameRemark B = .ok (memRead B (fixedSize B + 1) (byteAt B (fixedSize B)).toNat,
      fixedSize B + 1 + (byteAt B (fixedSize B)).toNat) := by
  rcases frameRemark_cases B with ⟨hshort, -⟩ | ⟨-, hbad, -⟩ | ⟨-, -, hf⟩
  · omega
  · omega
  · exact hf

theorem take_remarkMax {r : List Byte} (h : r.length ≤ 60) : r.take remarkMax = r := List.take_of_length_le h

end Sys2Proof.Machine
end

section

/-! ### The fields, the conditions and the region size of a decode (R182 to R190) -/

namespace Sys2Proof.Machine

/-- Settles O32: the sector loop gives the characters, the framing the remark, and the fields come from their
positions. -/
theorem decodeReadsTheFieldsAtTheirPositions : Obligations.DecodeReadsTheFieldsAtTheirPositions := by
  intro s B chars esc F L hfits hmax hchars hcodes
  have hsect : sectChars Config.hw.sectDigit 0 (sectorsByPosition (escapeRecord B) B) = .ok chars := by
    rw [sectChars_eq_ok_iff]
    refine List.ext_getElem (by simp [sectorsByPosition_length, hchars]) fun i _ hi => ?_
    rw [List.getElem_map, List.getElem_map, sectorsByPosition_getElem]
    exact hcodes i (by simpa using hi)
  have hregion : fixedSize B ≤ B.length := by
    have : fixedSize B + 1 + L ≤ B.length := hfits
    omega
  have hdecode := decodeRecord_of_sectChars hregion hsect
  rw [frameRemark_fits hmax hfits] at hdecode
  refine ⟨_, exec_decDecode_of_ok hdecode s, fun f => ?_, rtrim_spaces chars, rtrim_getLast? chars,
    take_remarkMax ((List.length_take_le _ _).trans hmax)⟩
  rw [Observation.get_normalise, Observation.get_mapFields, codesByPosition_get]
  rfl

/-- Settles O33: the phases of R183 are tested in the order of R189, each by its own lemma. -/
theorem decodeConditionsInTheirOrder : Obligations.DecodeConditionsInTheirOrder := by
  intro s B esc F L raises
  refine ⟨fun hshort => ?_, fun hlen hesc => ?_, fun hregion i hi hnone hbefore => ?_, fun hregion hsome => ?_⟩
  · exact exec_decDecode_of_error (decodeRecord_of_short hshort) s
  · exact exec_decDecode_of_error (decodeRecord_of_underrun hlen hesc) s
  · have hi' : i < (sectorsByPosition (escapeRecord B) B).length := by rw [sectorsByPosition_length]; exact hi
    have hsect := sectChars_of_lowest (sd := Config.hw.sectDigit) hi' (by rw [sectorsByPosition_getElem]; exact hnone)
      fun j hj => by rw [sectorsByPosition_getElem]; exact hbefore j hj
    rw [sectorsByPosition_getElem] at hsect
    exact exec_decDecode_of_error (decodeRecord_of_sectError hregion hsect) s
  · obtain ⟨chars, hsect⟩ := sectChars_of_isSome (sd := Config.hw.sectDigit)
      (cs := sectorsByPosition (escapeRecord B) B) fun i hi => by
        rw [sectorsByPosition_getElem]
        exact hsome i (by rw [sectorsByPosition_length] at hi; exact hi)
    have hdecode := decodeRecord_of_sectChars hregion hsect
    refine ⟨fun hnoLength => ?_, fun hlen hbad => ?_⟩
    · rw [frameRemark_noLength hnoLength] at hdecode
      exact exec_decDecode_of_error hdecode s
    · rw [frameRemark_badLength hlen hbad] at hdecode
      exact exec_decDecode_of_error hdecode s

/-- Settles O34: the region is read in one of the two formats, and a format E buffer of 22 bytes is not read. -/
theorem cursorAndRawByteAgreeOnTheRegionSize : Obligations.CursorAndRawByteAgreeOnTheRegionSize := by
  intro B c sc r hlen hread
  have hslot : escapeRecord B = true ↔ (byteAt B 1).toNat % 128 = 0 := beq_iff_eq
  rw [ne_eq, ← hslot, fixedSize_eq]
  cases hesc : escapeRecord B with
  | false =>
    cases (readFixedRegion_normal hlen hesc).symm.trans hread
    simp
  | true =>
    have hlen' : 23 ≤ B.length := by
      by_contra hshort
      cases (readFixedRegion_underrun (by omega) hesc).symm.trans hread
    cases (readFixedRegion_escape hlen' hesc).symm.trans hread
    simp

end Sys2Proof.Machine
end

section

/-! ### The round trip of an encoded record (R192, R193) -/

namespace Sys2Proof.Machine

/-- Settles O35: an encoder that answers has made `recordOf`, which the decoder inverts on the faithful set. -/
theorem decodeInvertsEncodeOnTheFaithfulSet : Obligations.DecodeInvertsEncodeOnTheFaithfulSet := by
  refine ⟨fun cfg x B T hsd hx hB => ?_, fun s x T hx => ?_⟩
  · rw [encodeRecord_eq hB]
    exact decode_recordOf_faithful hsd hx T
  · exact ⟨_, exec_encEncode_of_wf ((Observation.wf_iff x).mpr (faithful_wf hx)) s,
      exec_decDecode_of_ok (decode_recordOf_faithful Config.hw_admissible hx T) s⟩

/-- Settles O36: every record that is not mis-framed decodes to `normalForm`. -/
theorem roundTripGivesTheNormalForm : Obligations.RoundTripGivesTheNormalForm := by
  intro cfg x hsd hcap hwf hkk
  obtain ⟨hsectors, hremark⟩ := (Observation.wf_iff x).mp hwf
  have hdecode := decode_recordOf hsd hsectors hremark hkk.symm []
  rw [List.append_nil] at hdecode
  exact ⟨_, normalForm x, encodeRecord_ok (by rw [hcap]; rfl) hsectors, hdecode, fun _ => normalForm_get x,
    (Nat.cast_ite _ _ _).symm, rfl, rfl⟩

end Sys2Proof.Machine
end

section

/-! ### The ranges of a decoded Observation (R187, R190, R191) -/

namespace Sys2Proof.Machine

section Decoded

variable {f : FieldId} {c : Nat}

theorem decValue_of_plain (hdorg : f ≠ .dorg) (hsentinel : f.sentinel = false) (c : Int) : decValue f c = c := by
  simp [decValue, hdorg, hsentinel]

/-- R83, R85: code 3 is 255, and every other code is itself. -/
theorem decValue_dorg_mem (hc : c < 8) : decValue .dorg c ∈ ([0, 1, 2, 255, 4, 5, 6, 7] : List Int) := by
  revert c; decide

/-- R82, R85: the top code of a sentinel field is -1, so the values end one below it. -/
theorem decValue_sentinel_range (hf : f.sentinel = true) (hc : c < 2 ^ f.width) :
    -1 ≤ decValue f c ∧ decValue f c ≤ ((2 ^ f.width : Nat) : Int) - 2 := by
  have hpos := Nat.two_pow_pos f.width
  unfold decValue
  split_ifs with hdorg htop
  · rw [hdorg.1] at hf; cases hf
  · omega
  · have hne : (c : Int) ≠ ((2 ^ f.width - 1 : Nat) : Int) := fun h => htop ⟨hf, h⟩
    omega

end Decoded

theorem plainFields_spec {f : FieldId} (h : f ∈ plainFields) : f ≠ .kk ∧ f ≠ .dorg ∧ f.sentinel = false := by
  revert h; cases f <;> decide

/-- A field code is as wide as its field (R31, R72). -/
theorem fieldCode_lt (esc : Bool) (B : List Byte) {f : FieldId} (hf : f ≠ .kk) : fieldCode esc B f < 2 ^ f.width := by
  rw [fieldCode]
  split_ifs <;> exact codeAt_lt ..

theorem fieldCode_kk_escape (B : List Byte) : fieldCode true B .kk < 256 := codeAt_lt B 18 8

/-- R75: the observer slot of a format N record is not 0. -/
theorem fieldCode_kk_normal {B : List Byte} (h : escapeRecord B = false) :
    0 < fieldCode false B .kk ∧ fieldCode false B .kk < 128 := by
  have hslot : codeAt B 8 7 ≠ 0 := by rw [ne_eq, ← escapeRecord_iff, h]; decide
  exact ⟨Nat.pos_of_ne_zero hslot, codeAt_lt B 8 7⟩

variable {sd : SectDigit} {B : List Byte} {x : Observation} {k : Nat}

theorem decodeRecord_get (h : decodeRecord sd B = .ok (x, k)) (f : FieldId) :
    x.get f = decValue f (fieldCode (escapeRecord B) B f) := by
  obtain ⟨-, -, -, chars, -, rfl⟩ := decodeRecord_ok h
  rw [Observation.get_normalise, Observation.get_mapFields, codesByPosition_get]

/-- R187: `bytes_consumed` is the fixed region, the length byte and the remark. -/
theorem decodeRecord_consumed (h : decodeRecord sd B = .ok (x, k)) : k = fixedSize B + 1 + x.remark.length := by
  obtain ⟨hk, hmax, hfits, chars, -, rfl⟩ := decodeRecord_ok h
  have hremark : (memRead B (fixedSize B + 1) (byteAt B (fixedSize B)).toNat).length = (byteAt B (fixedSize B)).toNat :=
    memRead_length (by omega)
  rw [normalise, take_remarkMax (by omega), hremark, hk]

/-- R191: the observer id, 8 bits wide in format E and a slot other than 0 in format N. -/
theorem decodeRecord_kk_range (h : decodeRecord sd B = .ok (x, k)) :
    if escapeRecord B then 0 ≤ x.kk ∧ x.kk ≤ 255 else 1 ≤ x.kk ∧ x.kk ≤ 127 := by
  have hkk : x.kk = fieldCode (escapeRecord B) B .kk := by
    rw [← decValue_of_plain (f := .kk) (by decide) rfl (fieldCode (escapeRecord B) B .kk)]
    exact decodeRecord_get h .kk
  rw [hkk]
  cases hesc : escapeRecord B with
  | true =>
    have := fieldCode_kk_escape B
    rw [if_pos rfl]; omega
  | false =>
    have := fieldCode_kk_normal hesc
    rw [if_neg Bool.false_ne_true]; omega

theorem decodeRecord_plain_range (h : decodeRecord sd B = .ok (x, k)) {f : FieldId} (hkk : f ≠ .kk)
    (hdorg : f ≠ .dorg) (hsentinel : f.sentinel = false) : 0 ≤ x.get f ∧ x.get f < ((2 ^ f.width : Nat) : Int) := by
  have hlt := fieldCode_lt (escapeRecord B) B hkk
  rw [decodeRecord_get h, decValue_of_plain hdorg hsentinel]
  omega

/-- Settles O37: each field is `decValue` of its code, which is as wide as the field; the strings are normal. -/
theorem decodedValuesStayInRange : Obligations.DecodedValuesStayInRange := by
  intro sd B x k h esc
  obtain ⟨hwf, hlast⟩ := normalObservation_iff.mp (decodeRecord_normal h)
  obtain ⟨hsectors, hremark⟩ := (Observation.wf_iff x).mp hwf
  have hver := decodeRecord_plain_range h (f := .ver) (by decide) (by decide) rfl
  refine ⟨⟨hver.1, Int.le_of_lt_add_one hver.2⟩, decodeRecord_kk_range h, fun f hf => ?_, ?_, fun f hf => ?_, hsectors,
    hlast, hremark, ?_, (decodeRecord_bounds h).2.2⟩
  · obtain ⟨hkk, hdorg, hsentinel⟩ := plainFields_spec hf
    exact decodeRecord_plain_range h hkk hdorg hsentinel
  · show x.get .dorg ∈ _
    rw [decodeRecord_get h]
    exact decValue_dorg_mem (fieldCode_lt _ B (by decide))
  · have hsentinel := (mem_sentinelFields_iff f).mp hf
    rw [decodeRecord_get h]
    exact decValue_sentinel_range hsentinel (fieldCode_lt _ B (by rintro rfl; cases hsentinel))
  · rw [decodeRecord_consumed h, fixedSize_eq]
    show _ = (if escapeRecord B = true then 24 else 23) + _
    split_ifs <;> rfl

end Sys2Proof.Machine
end

section

/-! ### The bytes after a record, and a record cut short (R181, R194) -/

namespace Sys2Proof.Machine

/-- Settles O38: a decode is settled by the bytes it consumes. -/
theorem decodeIgnoresWhatFollowsTheRecord : Obligations.DecodeIgnoresWhatFollowsTheRecord := by
  intro s B T x k h
  rcases exec_decDecode B s with ⟨y, j, hd, he⟩ | ⟨c, -, he⟩ <;> cases he.symm.trans h
  have hk := (decodeRecord_bounds hd).2.2
  have hlen : (B.take k).length = k := List.length_take_of_le hk
  exact exec_decDecode_of_ok (decodeRecord_of_take hd (List.take_left' hlen) (by simp [hlen])) s

/-- The bytes of the fixed region of the record of `x` (R9). -/
def regionSize (x : Observation) : Nat := if x.kk > 99 then 23 else 22

theorem regionSize_ge (x : Observation) : 22 ≤ regionSize x := by
  rw [regionSize]; split_ifs <;> decide

section Cut

variable {sd : SectDigit} {x : Observation} {m : Nat} (hsd : sd.Admissible) (hwf : x.wf = true)
  (hkk : lowBits 7 x.kk ≠ 0 ∨ x.kk > 99) (T : List Byte) (hm : m ≤ (recordOf sd x ++ T).length)

include hwf in
theorem recordOf_length_regionSize (sd : SectDigit) :
    (recordOf sd x).length = regionSize x + 1 + x.remark.length := by
  rw [recordOf_length sd ((Observation.wf_iff x).mp hwf).1, regionSize]
  split_ifs <;> rfl

include hsd hwf hkk

theorem fixedSize_take_recordOf (hregion : regionSize x ≤ m) :
    fixedSize ((recordOf sd x ++ T).take m) = regionSize x :=
  (recordOf_take T m hsd hwf hkk rfl (by have := regionSize_ge x; omega)).2.1

include hm

/-- R194: a whole record decodes, with any part of the bytes after it. -/
theorem decodeRecord_take_whole (hwhole : regionSize x + 1 + x.remark.length ≤ m) :
    decodeRecord sd ((recordOf sd x ++ T).take m) = .ok (normalForm x, regionSize x + 1 + x.remark.length) := by
  obtain ⟨hsectors, hremark⟩ := (Observation.wf_iff x).mp hwf
  have hdecode := decode_recordOf hsd hsectors hremark hkk.symm T
  rw [recordOf_length_regionSize hwf] at hdecode
  refine decodeRecord_of_take hdecode ?_ ?_
  · rw [List.take_take, Nat.min_eq_left hwhole]
  · rw [List.length_take_of_le hm]; exact hwhole

/-- R194: once the fixed region is there, its sector codes have characters, so the cut shows in the remark alone. -/
theorem decodeRecord_take_of_frameError {c : Condition} (hregion : regionSize x ≤ m)
    (hframe : frameRemark ((recordOf sd x ++ T).take m) = .error c) :
    decodeRecord sd ((recordOf sd x ++ T).take m) = .error c := by
  have hmin := regionSize_ge x
  have hsize := fixedSize_take_recordOf hsd hwf hkk T hregion
  obtain ⟨hesc, -, hsect, -⟩ := recordOf_take T m hsd hwf hkk rfl (by omega)
  obtain ⟨chars, hchars⟩ := hsect hregion
  rw [decodeRecord_of_sectChars (by rw [hsize, List.length_take_of_le hm]; exact hregion) (hesc ▸ hchars), hframe]
  rfl

/-- R194: the record is cut just before its length byte. -/
theorem decodeRecord_take_noLength (hcut : m = regionSize x) :
    decodeRecord sd ((recordOf sd x ++ T).take m) = .error (.malformedRemark (regionSize x) none m) := by
  have hlen := List.length_take_of_le hm
  have hsize := fixedSize_take_recordOf hsd hwf hkk T hcut.ge
  have hframe := frameRemark_noLength (B := (recordOf sd x ++ T).take m) (by omega)
  rw [hsize, hlen] at hframe
  exact decodeRecord_take_of_frameError hsd hwf hkk T hm hcut.ge hframe

/-- R194: the record is cut inside its remark. -/
theorem decodeRecord_take_cutRemark (hlow : regionSize x + 1 ≤ m) (hcut : m < regionSize x + 1 + x.remark.length) :
    decodeRecord sd ((recordOf sd x ++ T).take m) =
      .error (.malformedRemark (regionSize x) (some x.remark.length) m) := by
  have hmin := regionSize_ge x
  have hlen := List.length_take_of_le hm
  have hsize := fixedSize_take_recordOf hsd hwf hkk T (Nat.le_of_succ_le hlow)
  obtain ⟨-, -, -, hread⟩ := recordOf_take T m hsd hwf hkk rfl (by omega)
  have hlength : (byteAt ((recordOf sd x ++ T).take m) (regionSize x)).toNat = x.remark.length :=
    hread (by rw [regionSize] at hlow; split_ifs at hlow ⊢ <;> exact hlow)
  rw [← hsize] at hlength
  have hframe := frameRemark_badLength (B := (recordOf sd x ++ T).take m) (by omega) (.inr (by omega))
  rw [hlength, hsize, hlen] at hframe
  exact decodeRecord_take_of_frameError hsd hwf hkk T hm (by omega) hframe

end Cut

/-- Settles O39: the two formats are the two sizes of the fixed region; only the underrun of format E at 22 bytes is a
row of its own. -/
theorem decodeOutcomeByBufferLength : Obligations.DecodeOutcomeByBufferLength := by
  intro cfg x B T m hsd hwf hkk hB hm L d
  obtain rfl := encodeRecord_eq hB
  have hlen := List.length_take_of_le hm
  have whole := decodeRecord_take_whole hsd hwf hkk T hm
  have noLength := decodeRecord_take_noLength hsd hwf hkk T hm
  have cutRemark := decodeRecord_take_cutRemark hsd hwf hkk T hm
  refine ⟨fun hshort => ?_, fun hnormal => ?_, fun hescape => ?_⟩
  · have htruncated := decodeRecord_of_short (sd := cfg.sectDigit) (hlen.trans_lt hshort)
    rwa [hlen] at htruncated
  · have hsize : regionSize x = 22 := if_neg (not_lt.mpr hnormal)
    rw [hsize] at whole noLength cutRemark
    exact ⟨fun hcut => hcut ▸ noLength hcut, cutRemark, fun h => ⟨_, whole h⟩⟩
  · have hsize : regionSize x = 23 := if_pos hescape
    rw [hsize] at whole noLength cutRemark
    refine ⟨fun hcut => decodeRecord_of_underrun (hlen.trans hcut) ?_, fun hcut => hcut ▸ noLength hcut, cutRemark,
      fun h => ⟨_, whole h⟩⟩
    rw [(recordOf_take T m hsd hwf hkk rfl (by omega)).1, decide_eq_true hescape]

end Sys2Proof.Machine
end

section

/-! ### RS.NEXT on a running stream by what is left of the source, and in a terminal state (R214, R215) -/

namespace Sys2Proof.Machine

section Running

variable {cfg : Config} {r : RecordStream} {x : Observation} {k : Nat} {e : Condition} (hc : 84 ≤ cfg.chunk)
  (hr : r.status = .running)

include hc hr

theorem next_of_decoded (hd : decodeRecord cfg.sectDigit (r.src.drop r.off) = .ok (x, k)) :
    r.next cfg = ({ r with off := r.off + k }, .item x) := by
  rcases next_running hc hr with ⟨y, j, hd', hn⟩ | ⟨-, hd', -⟩ | ⟨e, -, hd', -⟩ <;> cases hd'.symm.trans hd
  exact hn

theorem next_of_stray (hstray : r.src.length - r.off < 22) :
    r.next cfg = ({ r with status := .ended }, .streamEnd) := by
  rcases next_running hc hr with ⟨y, j, hd, -⟩ | ⟨-, -, hn⟩ | ⟨e, hlong, -⟩
  · have hb := decodeRecord_bounds hd
    rw [List.length_drop] at hb
    omega
  · exact hn
  · omega

theorem next_of_failed (hlong : 22 ≤ r.src.length - r.off)
    (hd : decodeRecord cfg.sectDigit (r.src.drop r.off) = .error e) :
    r.next cfg = ({ r with errOff := r.off, errCause := e.code, status := .error }, .streamError r.off e.code) := by
  rcases next_running hc hr with ⟨y, j, hd', -⟩ | ⟨hshort, -⟩ | ⟨e', -, hd', -, -, hn⟩
  · cases hd'.symm.trans hd
  · omega
  · cases hd'.symm.trans hd
    exact hn

end Running

theorem exec_rsNext_of_next {s : State} {r : RecordStream} {res : Result} (h : s.rs.next Config.hw = (r, res)) :
    exec .rsNext s = .next { s with rs := r, response := some (.ok res) } := by
  rw [exec_rsNext, h]; rfl

/-- Settles O41: the operation is `RecordStream.next`, and the decode conditions split at 22 bytes. -/
theorem rsNextAnswersByTheRestOfTheSource : Obligations.RsNextAnswersByTheRestOfTheSource := by
  intro s hr ho rest
  have hlen : rest.length = s.rs.src.length - s.rs.off := List.length_drop
  refine ⟨fun x k hd => ?_, fun m hd => ?_, fun e hd hne => ?_⟩
  · obtain ⟨hmin, -, hfits⟩ := decodeRecord_bounds hd
    exact ⟨exec_rsNext_of_next (next_of_decoded hw_chunk hr hd), hmin, by omega⟩
  · have hshort : rest.length < 22 := by
      rcases decodeRecord_error hd with ⟨-, hshort⟩ | ⟨-, hends, -⟩
      · exact hshort
      · cases hends
    exact ⟨exec_rsNext_of_next (next_of_stray hw_chunk hr (by omega)), by omega⟩
  · have hlong : 22 ≤ rest.length := by
      rcases decodeRecord_error hd with ⟨heq, -⟩ | ⟨hlong, -, -⟩
      · exact absurd heq (hne _)
      · exact hlong
    exact ⟨exec_rsNext_of_next (next_of_failed hw_chunk hr (by omega) hd), by omega⟩

theorem next_of_ended (cfg : Config) {r : RecordStream} (h : r.status = .ended) : r.next cfg = (r, .streamEnd) := by
  rw [RecordStream.next, h]

theorem next_of_error (cfg : Config) {r : RecordStream} (h : r.status = .error) :
    r.next cfg = (r, .streamError r.errOff r.errCause) := by
  rw [RecordStream.next, h]

/-- R215: no operation but RS.OPEN leaves a terminal state. -/
theorem Completes.rs_of_terminal {i : Instr} {s t : State} (h : Completes s i t) (hs : s.rs.status ≠ .running)
    (hi : ∀ b, i ≠ .rsOpen b) : t.rs = s.rs := by
  rcases h.rs_frame with (⟨b, rfl⟩ | rfl) | hrs
  · exact absurd rfl (hi b)
  · cases h
    exact next_terminal Config.hw hs
  · exact hrs

/-- Settles O42: RS.NEXT in a terminal state is its answer alone, and of the steps only a reset and an RS.OPEN write
the registers. -/
theorem terminalStatesAbsorb : Obligations.TerminalStatesAbsorb := by
  refine ⟨fun s hs => ?_, fun s t hs h hreset hopen => ?_⟩
  · have hn : s.rs.next Config.hw = (s.rs, (s.rs.next Config.hw).2) := Prod.ext (next_terminal Config.hw hs) rfl
    refine ⟨.ok (s.rs.next Config.hw).2, exec_rsNext_of_next hn, exec_rsNext_of_next hn, fun h => ?_, fun h => ?_⟩
    · rw [next_of_ended Config.hw h]
    · rw [next_of_error Config.hw h]
  · rcases step_cases h with ⟨-, rfl⟩ | ⟨c, rest, hp, hcommand⟩ | ⟨rest, hp, -⟩
    · rfl
    · rcases takeCommand_cases hcommand with ⟨i, hi, he⟩ | ⟨w, -, rfl⟩
      · refine (exec_completes he).rs_of_terminal hs ?_
        rintro b rfl
        exact hopen c b (by rw [hp]; rfl) hi
      · rfl
    · rw [hp] at hreset
      exact absurd rfl hreset

end Sys2Proof.Machine
end

section

/-! ### The chunk is seen through the decode alone (R212, R221) -/

namespace Sys2Proof.Machine

theorem endsStream_eq (e : Condition) : e.endsStream = (e.code == .truncatedRecord) := by cases e <;> rfl

/-- R221: RS.NEXT sees a failed decode through its code (log 6), so two chunks that decode alike are one chunk to it. -/
theorem next_congr {cfg cfg' : Config} {r : RecordStream}
    (h : (decodeRecord cfg.sectDigit (r.chunk cfg)).mapError Condition.code =
      (decodeRecord cfg'.sectDigit (r.chunk cfg')).mapError Condition.code) : r.next cfg = r.next cfg' := by
  cases hr : r.status with
  | ended => rw [next_of_ended cfg hr, next_of_ended cfg' hr]
  | error => rw [next_of_error cfg hr, next_of_error cfg' hr]
  | running =>
    simp only [RecordStream.next, hr, endsStream_eq]
    cases hd : decodeRecord cfg.sectDigit (r.chunk cfg) <;>
      cases hd' : decodeRecord cfg'.sectDigit (r.chunk cfg') <;> rw [hd, hd'] at h
    case ok.ok => cases h; rfl
    case ok.error => cases h
    case error.ok => cases h
    case error.error e e' =>
      have hcode : e.code = e'.code := Except.error.inj h
      simp only [hcode]

/-- Settles O46: the first 84 bytes settle the decode up to its record (`decodeRecord_take`). -/
theorem chunkSizeIsUnobservable : Obligations.ChunkSizeIsUnobservable := by
  intro cfg r hc
  refine next_congr ?_
  have hwhole : (r.src.drop r.off).take r.src.length = r.src.drop r.off :=
    List.take_of_length_le (by rw [List.length_drop]; exact Nat.sub_le _ _)
  rw [chunk_eq, chunk_eq, decodeRecord_take hc, hwhole]

end Sys2Proof.Machine
end

section

/-! ### RS.ALL, one RS.NEXT at a time (R216) -/

namespace Sys2Proof.Machine

section Drain

variable {cfg : Config} {r r' : RecordStream}

theorem drain_of_item {x : Observation} (h : r.next cfg = (r', .item x)) (fuel : Nat) :
    r.drain cfg (fuel + 1) = (r'.drain cfg fuel).map fun p => (x :: p.1, p.2) := by
  simp only [RecordStream.drain, h]
  cases r'.drain cfg fuel <;> rfl

theorem drain_of_end (h : r.next cfg = (r', .streamEnd)) (fuel : Nat) :
    r.drain cfg (fuel + 1) = some ([], .ended r'.off) := by
  rw [RecordStream.drain, h]

theorem drain_of_error {off : Nat} {c : ConditionCode} (h : r.next cfg = (r', .streamError off c)) (fuel : Nat) :
    r.drain cfg (fuel + 1) = some ([], .error off c) := by
  rw [RecordStream.drain, h]

end Drain

end Sys2Proof.Machine
end

section

/-! ### A source of records, and what may follow them (R217 to R219) -/

namespace Sys2Proof.Machine

/-- The records of `xs`, one after another (R217). -/
def recordsOf (sd : SectDigit) (xs : List Observation) : List Byte := xs.flatMap (recordOf sd)

theorem recordsOf_cons (sd : SectDigit) (x : Observation) (xs : List Observation) :
    recordsOf sd (x :: xs) = recordOf sd x ++ recordsOf sd xs := rfl

/-- The sources of the statements, which name each record as an answer of the encoder. -/
theorem flatten_of_encoded {cfg : Config} {xs : List Observation} {Bs : List (List Byte)}
    (h : xs.map (encodeRecord cfg) = Bs.map .ok) : Bs.flatten = recordsOf cfg.sectDigit xs := by
  induction xs generalizing Bs with
  | nil => rw [List.map_eq_nil_iff.mp h.symm]; rfl
  | cons x xs ih =>
    cases Bs with
    | nil => cases h
    | cons B Bs =>
      obtain ⟨hB, hBs⟩ := List.cons.inj h
      rw [List.flatten_cons, recordsOf_cons, encodeRecord_eq hB, ih hBs]

/-- No record is shorter than `REC_MIN` (R9, R154). -/
theorem recordsOf_length_ge (sd : SectDigit) {xs : List Observation} (hx : ∀ x ∈ xs, x.faithful = true) :
    23 * xs.length ≤ (recordsOf sd xs).length := by
  induction xs with
  | nil => exact Nat.le_refl 0
  | cons x xs ih =>
    have htail := ih fun y hy => hx y (List.mem_cons_of_mem x hy)
    have hhead : 23 ≤ (recordOf sd x).length := by
      rw [recordOf_length sd (faithful_wf (hx x List.mem_cons_self)).1]
      split_ifs <;> omega
    rw [recordsOf_cons, List.length_append, List.length_cons]
    omega

/-- The stream of RS.ALL over `S`, at the record that starts at byte `off`. -/
def RecordStream.openedAt (S : List Byte) (off : Nat) : RecordStream := { RecordStream.opened S 0 with off := off }

theorem openedAt_rest (A T : List Byte) :
    (RecordStream.openedAt (A ++ T) A.length).src.drop (RecordStream.openedAt (A ++ T) A.length).off = T :=
  List.drop_left

section Records

variable {cfg : Config} {xs : List Observation} {T : List Byte} (hc : 84 ≤ cfg.chunk)
  (hsd : cfg.sectDigit.Admissible) (hx : ∀ x ∈ xs, x.faithful = true)

include hc hsd hx

/-- R217: RS.ALL gives the Observations of the leading records and goes on where they end. -/
theorem streamAll_append : ∃ fuel, streamAll cfg (recordsOf cfg.sectDigit xs ++ T) =
    ((RecordStream.openedAt (recordsOf cfg.sectDigit xs ++ T)
      (recordsOf cfg.sectDigit xs).length).drain cfg (fuel + 1)).map fun p => (xs ++ p.1, p.2) := by
  have hmin := recordsOf_length_ge cfg.sectDigit hx
  generalize hS : recordsOf cfg.sectDigit xs ++ T = S
  have hbound : xs.length ≤ S.length / recMin := by
    rw [← hS, List.length_append, recMin_eq]
    omega
  refine ⟨S.length / recMin - xs.length, ?_⟩
  have hfuel : S.length / recMin + 1 = xs.length + (S.length / recMin - xs.length + 1) := by omega
  rw [streamAll, hfuel, drain_append hc hsd xs hx (T := T) (r := .opened S 0) rfl (Nat.zero_le _) hS.symm]
  simp only [RecordStream.opened, RecordStream.openedAt, recordsOf, Nat.zero_add]
  generalize RecordStream.drain cfg _ _ = out
  cases out <;> rfl

/-- R218: up to 21 bytes after the records end the stream. -/
theorem streamAll_stray (hstray : T.length < 22) : streamAll cfg (recordsOf cfg.sectDigit xs ++ T) =
    some (xs, .ended (recordsOf cfg.sectDigit xs).length) := by
  obtain ⟨fuel, hall⟩ := streamAll_append hc hsd hx (T := T)
  have hrest := openedAt_rest (recordsOf cfg.sectDigit xs) T
  have hend := next_of_stray hc (r := .openedAt _ _) rfl (by rw [← List.length_drop, hrest]; exact hstray)
  rw [hall, drain_of_end hend, Option.map_some, List.append_nil]
  rfl

/-- R214, R219: what does not decode after the records is the error, at its own offset. -/
theorem streamAll_failed {e : Condition} (hlong : 22 ≤ T.length) (hd : decodeRecord cfg.sectDigit T = .error e) :
    streamAll cfg (recordsOf cfg.sectDigit xs ++ T) =
      some (xs, .error (recordsOf cfg.sectDigit xs).length e.code) := by
  obtain ⟨fuel, hall⟩ := streamAll_append hc hsd hx (T := T)
  have hrest := openedAt_rest (recordsOf cfg.sectDigit xs) T
  have hend := next_of_failed hc (r := .openedAt _ _) rfl (by rw [← List.length_drop, hrest]; exact hlong)
    (by rw [hrest]; exact hd)
  rw [hall, drain_of_error hend, Option.map_some, List.append_nil]
  rfl

end Records

/-- Settles O43: the source is the records and stray bytes, and each RS.NEXT inverts the encoder on one record. -/
theorem streamOfRecordsGivesThemInOrder : Obligations.StreamOfRecordsGivesThemInOrder := by
  intro cfg xs Bs T hc hsd hx hBs hT
  rw [flatten_of_encoded hBs]
  exact streamAll_stray hc hsd hx (Nat.lt_succ_of_le hT)

/-- R194, R219: a record cut after 22 bytes or more underruns (format E, 22 bytes), lacks its length byte, or lacks a
part of its remark. -/
theorem decodeRecord_take_cut {sd : SectDigit} {y : Observation} {m : Nat} (hsd : sd.Admissible) (hwf : y.wf = true)
    (hkk : lowBits 7 y.kk ≠ 0 ∨ y.kk > 99) (hlow : 22 ≤ m) (hcut : m < (recordOf sd y).length) :
    ∃ e, decodeRecord sd ((recordOf sd y).take m) = .error e ∧
      (e.code = .malformedRemark ∨ e.code = .unexpectedEndOfData) := by
  have hm : m ≤ (recordOf sd y ++ []).length := by rw [List.append_nil]; exact hcut.le
  have hlen := List.length_take_of_le hcut.le
  rw [recordOf_length_regionSize hwf] at hcut
  rw [← List.append_nil (recordOf sd y)] at hlen ⊢
  rcases lt_trichotomy m (regionSize y) with hunder | hregion | hremark
  · have hescape : y.kk > 99 ∧ m = 22 := by rw [regionSize] at hunder; split_ifs at hunder <;> omega
    have hesc := (recordOf_take (sd := sd) [] m hsd hwf hkk rfl (by omega)).1
    rw [decide_eq_true hescape.1] at hesc
    exact ⟨_, decodeRecord_of_underrun (hlen.trans hescape.2) hesc, .inr rfl⟩
  · exact ⟨_, decodeRecord_take_noLength hsd hwf hkk [] hm hregion, .inl rfl⟩
  · exact ⟨_, decodeRecord_take_cutRemark hsd hwf hkk [] hm hremark hcut, .inl rfl⟩

/-- Settles O44: up to 21 bytes of the cut record are stray bytes, and 22 or more do not decode. -/
theorem cutFinalRecordIsEndOrErrorByItsLength : Obligations.CutFinalRecordIsEndOrErrorByItsLength := by
  intro cfg xs Bs y Y m hc hsd hx hBs hwf hkk hY hm off out
  obtain rfl := encodeRecord_eq hY
  have hlen := List.length_take_of_le hm.le
  simp only [off, out, flatten_of_encoded hBs]
  refine ⟨fun hshort => streamAll_stray hc hsd hx (by omega), fun hlong => ?_⟩
  obtain ⟨e, hd, hcode⟩ := decodeRecord_take_cut hsd hwf hkk hlong hm
  rw [streamAll_failed hc hsd hx (by omega) hd]
  rcases hcode with hcode | hcode
  · exact .inl (by rw [hcode])
  · exact .inr (by rw [hcode])

end Sys2Proof.Machine
end

section

/-! ### Every stream ends, inside its source (R214, R216) -/

namespace Sys2Proof.Machine

/-- How a stream over `len` bytes may end (R214): `End` with stray bytes left, or `Error` with enough bytes left to
attempt a decode and a decode failure as its cause. -/
def Terminal.Within (len : Nat) : Terminal → Prop
  | .ended off => off ≤ len ∧ len - off ≤ 21
  | .error off c => off ≤ len ∧ 22 ≤ len - off ∧ ConditionCode.decodeFailure c = true

/-- Whatever the fuel, a drain that ends has taken normal items of at least 23 bytes each and stopped in the source. -/
theorem drain_bounds {cfg : Config} (hc : 84 ≤ cfg.chunk) {fuel : Nat} {r : RecordStream} (hr : r.status = .running)
    (ho : r.off ≤ r.src.length) {xs : List Observation} {t : Terminal} (h : r.drain cfg fuel = some (xs, t)) :
    23 * xs.length ≤ r.src.length - r.off ∧ (∀ x ∈ xs, normalObservation x = true) ∧ t.Within r.src.length := by
  induction fuel generalizing r xs with
  | zero => cases h
  | succ fuel ih =>
    rcases next_running hc hr with ⟨x, k, hd, hn⟩ | ⟨hshort, -, hn⟩ | ⟨e, hlong, -, -, hfailure, hn⟩
    · obtain ⟨hmin, -, hfits⟩ := decodeRecord_bounds hd
      rw [List.length_drop] at hfits
      rw [drain_of_item hn, Option.map_eq_some_iff] at h
      obtain ⟨⟨ys, t'⟩, hrest, heq⟩ := h
      cases heq
      obtain ⟨hlen, hnormal, hend⟩ := ih (r := { r with off := r.off + k }) hr (by simp only; omega) hrest
      refine ⟨by simp only [List.length_cons] at hlen ⊢; omega, ?_, hend⟩
      exact List.forall_mem_cons.mpr ⟨decodeRecord_normal hd, hnormal⟩
    · rw [drain_of_end hn] at h
      cases h
      exact ⟨Nat.zero_le _, List.forall_mem_nil _, ho, Nat.le_of_lt_succ hshort⟩
    · rw [drain_of_error hn] at h
      cases h
      exact ⟨Nat.zero_le _, List.forall_mem_nil _, ho, hlong, hfailure⟩

/-- Settles O45: the fuel of R214's bound is enough (`drain_total`), and a drain that ends is bounded. -/
theorem everyStreamEnds : Obligations.EveryStreamEnds := by
  intro cfg S hc
  have htotal := drain_total hc (S.length / recMin + 1) (r := .opened S 0) (Nat.zero_le _)
    (by rw [recMin_eq]; exact Nat.lt_succ_self _)
  obtain ⟨⟨xs, t⟩, hdrain⟩ := Option.isSome_iff_exists.mp htotal
  obtain ⟨hlen, hnormal, hend⟩ := drain_bounds hc rfl (Nat.zero_le _) hdrain
  refine ⟨xs, t, hdrain, hlen, hnormal, ?_⟩
  cases t with
  | ended off => exact hend
  | error off c => exact hend

end Sys2Proof.Machine
end

section

/-! ### Which operation raises which condition, and what a raise leaves unchanged (R230 to R232, R242) -/

namespace Sys2Proof.Machine

/-- R241: an operation that answers a condition has raised it. -/
theorem Completes.eq_raise {s t : State} {i : Instr} {c : Condition} (h : Completes s i t)
    (hc : t.response = some (.condition c)) : t = s.raise c := by
  cases h with
  | bwWriteClosed | bwFlushClosed | brReadPastEnd | decDecodeFails => cases hc; rfl
  | _ => cases hc

theorem takeCommand_eq_raise {m : Command} {s t : State} {c : Condition} (h : takeCommand m s = .next t)
    (hc : t.response = some (.condition c)) : t = s.raise c := by
  rcases takeCommand_cases h with ⟨i, -, he⟩ | ⟨w, -, rfl⟩
  · exact (exec_completes he).eq_raise hc
  · cases hc; rfl

/-- Settles O10: an answer that is a condition was raised, by the operation or by the port, and a raise sets the
response alone. -/
theorem conditionsArePrecise : Obligations.ConditionsArePrecise :=
  ⟨fun _ _ _ _ h hc => (exec_completes h).eq_raise hc, fun _ _ _ _ h hc => takeCommand_eq_raise h hc⟩

theorem ConditionCode.decodeFailure_iff {e : ConditionCode} : ConditionCode.decodeFailure e = true ↔
    e = .unexpectedEndOfData ∨ e = .malformedField ∨ e = .malformedRemark := by
  simp [ConditionCode.decodeFailure, or_assoc]

/-- R230: the codes of DEC.DECODE. -/
theorem decodeRecord_error_code {sd : SectDigit} {B : List Byte} {c : Condition} (h : decodeRecord sd B = .error c) :
    c.code = .unexpectedEndOfData ∨ c.code = .truncatedRecord ∨ c.code = .malformedRemark ∨
      c.code = .malformedField := by
  rcases decodeRecord_error h with ⟨rfl, -⟩ | ⟨-, -, hfailure⟩
  · exact .inr (.inl rfl)
  · exact (ConditionCode.decodeFailure_iff.mp hfailure).imp_right fun hmalformed => .inr hmalformed.symm

/-- Settles O13: four answers are conditions. The two of the writer have its closed flag as their test, the third is a
read past the end, and the fourth is a failed decode, whose codes are `decodeRecord_error_code`. -/
theorem conditionsComeFromTheirOperations : Obligations.ConditionsComeFromTheirOperations := by
  intro i s t c h hc
  cases exec_completes h with
  | bwWriteClosed v n isClosed => cases hc; exact .inl ⟨rfl, isClosed, .inl ⟨v, n, rfl⟩⟩
  | bwFlushClosed isClosed => cases hc; exact .inl ⟨rfl, isClosed, .inr rfl⟩
  | brReadPastEnd n => cases hc; exact .inr (.inl ⟨rfl, .inl ⟨n, rfl⟩⟩)
  | decDecodeFails B _ failed =>
    cases hc
    rcases decodeRecord_error_code failed with hend | hrecord
    · exact .inr (.inl ⟨hend, .inr ⟨B, rfl⟩⟩)
    · exact .inr (.inr ⟨hrecord, B, rfl⟩)
  | _ => cases hc

end Sys2Proof.Machine
end

section

/-! ### A closed writer until BW.INIT (R231, R270) -/

namespace Sys2Proof.Machine

theorem BitWriter.putBits_reset_stream (bs : List Bool) : (BitWriter.putBits bs .reset).stream = bs :=
  (BitWriter.putBits_spec BitWriter.reset_inv rfl bs).2

/-- Settles O14: a raise keeps the writer closed, so the flush raises too, and BW.INIT makes the writer new for the
second write. -/
theorem closedWriterStaysClosedUntilInit : Obligations.ClosedWriterStaysClosedUntilInit := by
  intro s v w n m hclosed
  have hwrite := exec_bwWrite_closed hclosed v n
  have hflush := exec_bwFlush_closed (s := s.raise .writerClosed) hclosed
  have hrecover := runOps_pair (exec_bwInit ((s.raise .writerClosed).raise .writerClosed))
    (exec_bwWrite_open rfl w m)
  exact ⟨_, runOps_cons hwrite (runOps_cons hflush hrecover), runOps_pair hwrite hflush,
    BitWriter.putBits_reset_stream _, rfl, rfl⟩

end Sys2Proof.Machine
end

section

/-! ### Every operation the port can carry completes with a response (R102, R263) -/

namespace Sys2Proof.Machine

variable {s : State} {i : Instr}

/-- R102: success or a condition, the next state holds the answer. -/
theorem Completes.answers {t : State} (h : Completes s i t) : ∃ r, t.response = some r := by
  cases h <;> exact ⟨_, rfl⟩

/-- No test of an operation's rule leaves a state without an answer: the one refusal, an Observation that is too long,
is no operand of the port (R32, R33). -/
theorem exec_next_of_wf (s : State) (hwf : i.wf = true) : ∃ t, exec i s = .next t := by
  cases i with
  | bwInit | brLoad | rsOpen | rsNext => exact ⟨_, rfl⟩
  | bwWrite v n => rcases exec_bwWrite v n s with ⟨-, he⟩ | ⟨-, he⟩ <;> exact ⟨_, he⟩
  | bwFlush => rcases exec_bwFlush s with ⟨-, he⟩ | ⟨-, w, -, -, he⟩ <;> exact ⟨_, he⟩
  | brRead n => rcases exec_brRead n s with ⟨-, he⟩ | ⟨-, he⟩ <;> exact ⟨_, he⟩
  | encEncode x => exact ⟨_, exec_encEncode_of_wf hwf s⟩
  | decDecode B => rcases exec_decDecode B s with ⟨x, k, -, he⟩ | ⟨c, -, he⟩ <;> exact ⟨_, he⟩

end Sys2Proof.Machine

namespace Sys2Proof.Machine

/-- Settles O9: a well-formed operation has a next state, and whatever completes has answered. -/
theorem everyOperationIsDefinedInEveryState : Obligations.EveryOperationIsDefinedInEveryState := by
  intro i s hwf
  obtain ⟨t, ht⟩ := exec_next_of_wf s hwf
  obtain ⟨r, hr⟩ := (exec_completes ht).answers
  exact ⟨t, r, ht, hr⟩

end Sys2Proof.Machine
end

section

/-! ### A record with observer slot 0 read as format E (R75, R155, R271) -/

namespace Sys2Proof.Machine

theorem codeAt_add_mod (B : List Byte) (o n m : Nat) : codeAt B o (n + m) % 2 ^ n = codeAt B o n := by
  rw [codeAt_add, Nat.add_mul_mod_self_left, Nat.mod_eq_of_lt (codeAt_lt B o n)]

theorem lowBits_add_mod (n m : Nat) (v : Int) : lowBits (n + m) v % 2 ^ n = lowBits n v := by
  rw [← bitsToNat_valueBits, valueBits_add, bitsToNat_append, valueBits_length, bitsToNat_valueBits,
    Nat.add_mul_mod_self_left, Nat.mod_eq_of_lt (lowBits_lt n v)]

/-- R72: the escape byte moves every later field by 8 bits. -/
theorem firstBitEscape_eq_add_eight {f : FieldId} (hf : f ∈ laterFields) : firstBitEscape f = firstBitNormal f + 8 := by
  obtain ⟨hnormal, hescape⟩ := firstBit_later f hf
  omega

theorem fieldCode_escape_later (B : List Byte) {f : FieldId} (hf : f ∈ laterFields) :
    fieldCode true B f = codeAt B (firstBitNormal f + 8) f.width := by
  have hkk : f ≠ .kk := by rintro rfl; revert hf; decide
  rw [fieldCode, if_pos rfl, if_neg hkk, firstBitEscape_eq_add_eight hf]

variable {x : Observation} (sd : SectDigit) (T : List Byte)

/-- R155: the observer slot of a format N record carries the low seven bits of `kk`, and 0 there is the escape. -/
theorem escapeRecord_recordOf_slotZero (hkk : x.kk ≤ 99) (hslot : lowBits 7 x.kk = 0) :
    escapeRecord (recordOf sd x ++ T) = true := by
  rw [escapeRecord_iff, (recordOf_codes sd x T).1, if_neg (not_lt.mpr hkk), hslot]

theorem recordOf_normal_code (hkk : x.kk ≤ 99) {f : FieldId} (hf : f ≠ .kk) (hdorg : f ≠ .dorg) :
    codeAt (recordOf sd x ++ T) (firstBitNormal f) f.width = lowBits f.width (x.get f) := by
  have hcode := (recordOf_codes sd x T).2.1 f hf
  rwa [decide_eq_false (not_lt.mpr hkk), encCode_eq_lowBits hdorg] at hcode

/-- R271: the eight bits where format E has `kk` are, in format N, the year code and the low bit of the month. -/
theorem recordOf_normal_escapeByte (hkk : x.kk ≤ 99) :
    codeAt (recordOf sd x ++ T) 18 8 = lowBits 7 x.year + 128 * lowBits 1 x.month := by
  have hyear : codeAt (recordOf sd x ++ T) 18 7 = lowBits 7 x.year :=
    recordOf_normal_code sd T hkk (f := .year) (by decide) (by decide)
  have hmonth : codeAt (recordOf sd x ++ T) 25 4 = lowBits 4 x.month :=
    recordOf_normal_code sd T hkk (f := .month) (by decide) (by decide)
  have hlow : codeAt (recordOf sd x ++ T) 25 1 = lowBits 1 x.month := by
    rw [← codeAt_add_mod _ 25 1 3, hmonth, lowBits_add_mod 1 3]
  rw [codeAt_add _ 18 7 1, hyear, hlow]
  rfl

end Sys2Proof.Machine

namespace Sys2Proof.Machine

/-- Settles O40: observer slot 0 is the escape on every decode, so a decode reads each field where format E has it. -/
theorem observerIdZeroMisframesTheRecord : Obligations.ObserverIdZeroMisframesTheRecord := by
  intro cfg x y B T k _ hkk hslot hB
  rw [encodeRecord_eq hB]
  have hesc := escapeRecord_recordOf_slotZero cfg.sectDigit T hkk hslot
  refine ⟨beq_iff_eq.mp hesc, fun hdecode => ⟨?_, fun f hf => ?_, ?_⟩⟩
  · show y.get .kk = _
    rw [decodeRecord_get hdecode, hesc, decValue_of_plain (by decide) rfl]
    exact_mod_cast recordOf_normal_escapeByte cfg.sectDigit T hkk
  · rw [decodeRecord_get hdecode, hesc, fieldCode_escape_later _ hf]
  · have hconsumed := (decodeRecord_ok hdecode).1
    rwa [fixedSize_eq, hesc, if_pos rfl] at hconsumed

end Sys2Proof.Machine
end

section

/-! ### The register invariant at reset, unit by unit (R21 to R23, R28, R38) -/

namespace Sys2Proof.Machine

/-- Settles O1: the writer at reset holds no partial byte, the reader is one that has just loaded the empty sequence,
the stream runs from the start of its source, and the response port is empty. -/
theorem resetMeetsTheInvariant : Obligations.ResetMeetsTheInvariant where
  bw := BitWriter.reset_inv
  br := BitReader.load_inv []
  rs := RecordStream.inv_of_start rfl rfl
  response := rfl

end Sys2Proof.Machine
end
